-- ==== Sys2Proof/Word.lean ====
section
/-!
DEFINITION. The words of HamCode CORE: a command word, a byte, and the fixed-length bit sequences of
spec/00_scope.md R1 and R2. A bit sequence `s` of length `n` is a `BitVec n` whose bit `j` is `s[j]` (R2); a byte is
a number (R2), most significant bit first only inside the bitpacker (R80).
-/

namespace Sys2Proof

/-- A command word or a response word, 32 bits (R40, R43). -/
abbrev Word := BitVec 32

/-- A byte, a number 0..255. -/
abbrev Byte := BitVec 8

/-- The 11 data bits of one chunk: `d[j]` is bit `j`. -/
abbrev Chunk := BitVec 11

/-- A 16-bit codeword: index `b` is bit `b` (index 0 the overall parity, R14). -/
abbrev Codeword := BitVec 16

/-- The 176 message bits: `MSG[k]` is bit `k` (R13; DESIGN CHOICE, notes/assumptions/7.md). -/
abbrev Message := BitVec 176

/-- One grid row: column `c` is bit `c` (R2, R3). -/
abbrev GridRow := BitVec 20

/-- The 20-bit value of a response (R43). -/
abbrev Value := BitVec 20

/-- The filler draw of one command: `rnd[j]` is bit `j`. At most 168 bits are ever consumed (R84). -/
abbrev Draw := BitVec 168

/-- The payload buffer `PAY[0..21]` (R11). -/
abbrev Payload := Vector Byte 22

/-- The sixteen codeword registers `CW[0..15]` (R14). -/
abbrev Codewords := Vector Codeword 16

/-- The 20 rows of the grid, row 0 at the top (R3, R15). -/
abbrev Grid := Vector GridRow 20

end Sys2Proof
end

