-- ==== Sys2Proof/Config.lean ====
section
/-!
DEFINITION. The constants of spec/00_scope.md R1. The spec leaves none of them to an implementation, so they are
plain numbers. There is no opaque constant: the one open quantity, the filler draw `rnd` (92_eei_decisions.md D9), is an input
of each command and stands in State (notes/assumptions/2.md).
-/

namespace Sys2Proof.Config

/-- `GRID_N`: the grid is 20 by 20 cells. -/
@[simp] abbrev gridN : Nat := 20

/-- `FINDER_W`: rows 0..3 and columns 0..3 are the finder region. -/
@[simp] abbrev finderW : Nat := 4

/-- `REGION_N`: a mapping region is 4 by 4 cells. -/
@[simp] abbrev regionN : Nat := 4

/-- `CW_BITS`: bits per codeword. -/
@[simp] abbrev cwBits : Nat := 16

/-- `DATA_BITS`: data bits per codeword. -/
@[simp] abbrev dataBits : Nat := 11

/-- `N_CHUNKS`: codewords per message. -/
@[simp] abbrev nChunks : Nat := 16

/-- `MSG_BITS`: message length in bits. -/
@[simp] abbrev msgBits : Nat := 176

/-- `MSG_BYTES`: message length in bytes. -/
@[simp] abbrev msgBytes : Nat := 22

/-- `MAX_PAYLOAD`: greatest payload length in bytes. -/
@[simp] abbrev maxPayload : Nat := 21

/-- `TERMINATOR`: the one terminator byte. -/
@[simp] abbrev terminator : Byte := 0x00#8

/-- `PARITY_IDX`: the Hamming parity positions of a codeword. -/
abbrev parityIdx : List Nat := [1, 2, 4, 8]

/-- `DATA_IDX`: the data positions of a codeword, in this order. -/
abbrev dataIdx : List Nat := [3, 5, 6, 7, 9, 10, 11, 12, 13, 14, 15]

end Sys2Proof.Config
end

