-- ==== Sys2Proof/Syntax.lean ====
section
/-!
DEFINITION. The 27 commands of spec/30_encoding.md R42, one constructor per row of spec/opcode_table.json, in the
table's order. An operand has the width of the field that carries it (R41): a byte position or a row or a column is 5 bits, a
chunk index 4 bits (`idx` bit 4 must be 0). Limits that are not powers of two are checked in WellFormed.lean.
-/

namespace Sys2Proof

/-- The commands. `pos` is a byte position, `ch` a chunk index, `row` and `col` grid coordinates. -/
inductive Instr where
  /-- `NOP` (R60). -/
  | nop
  /-- `RST` (R61). -/
  | rst
  /-- `WRPAY i, v` (R62). -/
  | wrpay (pos : BitVec 5) (v : Byte)
  /-- `RDPAY i` (R63). -/
  | rdpay (pos : BitVec 5)
  /-- `WRLEN n` (R64). -/
  | wrlen (n : BitVec 5)
  /-- `RDLEN` (R65). -/
  | rdlen
  /-- `WRMSG k, v` (R66). -/
  | wrmsg (pos : BitVec 5) (v : Byte)
  /-- `RDMSG k` (R67). -/
  | rdmsg (pos : BitVec 5)
  /-- `WRCW ch, v` (R68). -/
  | wrcw (ch : BitVec 4) (v : Codeword)
  /-- `RDCW ch` (R69). -/
  | rdcw (ch : BitVec 4)
  /-- `WRROW r, v` (R70). -/
  | wrrow (row : BitVec 5) (v : GridRow)
  /-- `RDROW r` (R71). -/
  | rdrow (row : BitVec 5)
  /-- `RDSTAT` (R72). -/
  | rdstat
  /-- `BUILD` (R89). -/
  | build
  /-- `UNPK` (R90). -/
  | unpk
  /-- `HENC ch` (R103). -/
  | henc (ch : BitVec 4)
  /-- `HENCA` (R104). -/
  | henca
  /-- `HENCI v` (R105). -/
  | henci (v : Chunk)
  /-- `HDEC ch` (R120). -/
  | hdec (ch : BitVec 4)
  /-- `HDECA` (R121). -/
  | hdeca
  /-- `HDECI v` (R122). -/
  | hdeci (v : Codeword)
  /-- `PLACE` (R136). -/
  | place
  /-- `EXTR` (R137). -/
  | extr
  /-- `OVL` (R145). -/
  | ovl
  /-- `TOG r, c` (R146). -/
  | tog (row col : BitVec 5)
  /-- `ENCODE` (R151). -/
  | encode
  /-- `DECODE` (R154). -/
  | decode
  deriving DecidableEq, Repr

end Sys2Proof
end

