-- ==== Sys2Proof/WellFormed.lean ====
section
/-!
DEFINITION. The value checks of spec/30_encoding.md R41 and R42: the limits a field's width does not express.
Every other operand is legal at every value of its field (`WRLEN` accepts 0..31, R41).
-/

namespace Sys2Proof

/-- A byte position is 0..21 (R34). -/
def bytePosOk (pos : BitVec 5) : Bool := decide (pos.toNat < Config.msgBytes)

/-- A grid row or column is 0..19 (R34, R3). -/
def gridIdxOk (i : BitVec 5) : Bool := decide (i.toNat < Config.gridN)

/-- The operands of a command satisfy its row's value checks (R42). -/
def Instr.wf : Instr → Bool
  | .wrpay pos _ => bytePosOk pos
  | .rdpay pos => bytePosOk pos
  | .wrmsg pos _ => bytePosOk pos
  | .rdmsg pos => bytePosOk pos
  | .wrrow row _ => gridIdxOk row
  | .rdrow row => gridIdxOk row
  | .tog row col => gridIdxOk row && gridIdxOk col
  | .nop => true
  | .rst => true
  | .wrlen _ => true
  | .rdlen => true
  | .wrcw _ _ => true
  | .rdcw _ => true
  | .rdstat => true
  | .build => true
  | .unpk => true
  | .henc _ => true
  | .henca => true
  | .henci _ => true
  | .hdec _ => true
  | .hdeca => true
  | .hdeci _ => true
  | .place => true
  | .extr => true
  | .ovl => true
  | .encode => true
  | .decode => true

end Sys2Proof
end

