-- ==== Sys2Proof/Decode.lean ====
section
/-!
DEFINITION. Decoding a 32-bit command word (spec/30_encoding.md R40, R42, R45, R49), total on every word and
refusing by name, the encoder that is its inverse, and the match/mask table of R42.
-/

namespace Sys2Proof

/-! ### The fields of a command word (R40) -/

/-- `op`, bits 31..26. -/
def opField (w : Word) : BitVec 6 := w.extractLsb' 26 6

/-- `idx`, bits 25..21. -/
def idxField (w : Word) : BitVec 5 := w.extractLsb' 21 5

/-- `z`, bit 20. -/
def zField (w : Word) : Bool := w.getLsbD 20

/-- `imm`, bits 19..0. -/
def immField (w : Word) : BitVec 20 := w.extractLsb' 0 20

/-- Why a word is an illegal command: the four cases of R45. -/
inductive DecodeError where
  /-- Case 1: the reserved bit `z` is 1. -/
  | reservedBit
  /-- Case 2: `op` is not one of the 27 values of R42. -/
  | reservedOpcode
  /-- Case 3: an operand bit that the row's mask covers is 1. -/
  | maskedBit
  /-- Case 4: an index or a column is out of its range. -/
  | valueCheck
  deriving DecidableEq, Repr

/-! ### The operand forms of R41: each requires the bits it does not use to be 0, then checks values -/

/-- A command with no operand. -/
def formNone (w : Word) (i : Instr) : Except DecodeError Instr :=
  if idxField w = 0 ∧ immField w = 0 then .ok i else .error .maskedBit

/-- A byte position in `idx` and a byte in `imm[7:0]`. -/
def formPosByte (w : Word) (f : BitVec 5 → Byte → Instr) : Except DecodeError Instr :=
  if (immField w).extractLsb' 8 12 = 0 then
    if bytePosOk (idxField w) then .ok (f (idxField w) ((immField w).extractLsb' 0 8)) else .error .valueCheck
  else .error .maskedBit

/-- A byte position in `idx` and no immediate. -/
def formPos (w : Word) (f : BitVec 5 → Instr) : Except DecodeError Instr :=
  if immField w = 0 then
    if bytePosOk (idxField w) then .ok (f (idxField w)) else .error .valueCheck
  else .error .maskedBit

/-- No index and a length in `imm[4:0]`. -/
def formLen (w : Word) (f : BitVec 5 → Instr) : Except DecodeError Instr :=
  if idxField w = 0 ∧ (immField w).extractLsb' 5 15 = 0 then .ok (f ((immField w).extractLsb' 0 5))
  else .error .maskedBit

/-- A chunk index in `idx[3:0]` and a codeword in `imm[15:0]`. -/
def formChunkCw (w : Word) (f : BitVec 4 → Codeword → Instr) : Except DecodeError Instr :=
  if (idxField w).getLsbD 4 = false ∧ (immField w).extractLsb' 16 4 = 0 then
    .ok (f ((idxField w).extractLsb' 0 4) ((immField w).extractLsb' 0 16))
  else .error .maskedBit

/-- A chunk index in `idx[3:0]` and no immediate. -/
def formChunk (w : Word) (f : BitVec 4 → Instr) : Except DecodeError Instr :=
  if (idxField w).getLsbD 4 = false ∧ immField w = 0 then .ok (f ((idxField w).extractLsb' 0 4))
  else .error .maskedBit

/-- A row in `idx` and the 20 row bits in `imm`. -/
def formRowBits (w : Word) (f : BitVec 5 → GridRow → Instr) : Except DecodeError Instr :=
  if gridIdxOk (idxField w) then .ok (f (idxField w) (immField w)) else .error .valueCheck

/-- A row in `idx` and no immediate. -/
def formRow (w : Word) (f : BitVec 5 → Instr) : Except DecodeError Instr :=
  if immField w = 0 then
    if gridIdxOk (idxField w) then .ok (f (idxField w)) else .error .valueCheck
  else .error .maskedBit

/-- A row in `idx` and a column in `imm[4:0]`. -/
def formRowCol (w : Word) (f : BitVec 5 → BitVec 5 → Instr) : Except DecodeError Instr :=
  if (immField w).extractLsb' 5 15 = 0 then
    if gridIdxOk (idxField w) && gridIdxOk ((immField w).extractLsb' 0 5) then
      .ok (f (idxField w) ((immField w).extractLsb' 0 5))
    else .error .valueCheck
  else .error .maskedBit

/-- No index and chunk data in `imm[10:0]`. -/
def formData (w : Word) (f : Chunk → Instr) : Except DecodeError Instr :=
  if idxField w = 0 ∧ (immField w).extractLsb' 11 9 = 0 then .ok (f ((immField w).extractLsb' 0 11))
  else .error .maskedBit

/-- No index and a codeword in `imm[15:0]`. -/
def formCw (w : Word) (f : Codeword → Instr) : Except DecodeError Instr :=
  if idxField w = 0 ∧ (immField w).extractLsb' 16 4 = 0 then .ok (f ((immField w).extractLsb' 0 16))
  else .error .maskedBit

/-! ### The decoder (R45, R49) -/

/-- The command of a word, or the first case of R45 that makes it illegal. -/
def decode (w : Word) : Except DecodeError Instr :=
  if zField w then .error .reservedBit
  else match opField w with
    | 0x00#6 => formNone w .nop
    | 0x01#6 => formNone w .rst
    | 0x08#6 => formPosByte w .wrpay
    | 0x09#6 => formPos w .rdpay
    | 0x0A#6 => formLen w .wrlen
    | 0x0B#6 => formNone w .rdlen
    | 0x0C#6 => formPosByte w .wrmsg
    | 0x0D#6 => formPos w .rdmsg
    | 0x0E#6 => formChunkCw w .wrcw
    | 0x0F#6 => formChunk w .rdcw
    | 0x10#6 => formRowBits w .wrrow
    | 0x11#6 => formRow w .rdrow
    | 0x12#6 => formNone w .rdstat
    | 0x18#6 => formNone w .build
    | 0x19#6 => formNone w .unpk
    | 0x20#6 => formChunk w .henc
    | 0x21#6 => formNone w .henca
    | 0x22#6 => formData w .henci
    | 0x28#6 => formChunk w .hdec
    | 0x29#6 => formNone w .hdeca
    | 0x2A#6 => formCw w .hdeci
    | 0x30#6 => formNone w .place
    | 0x31#6 => formNone w .extr
    | 0x34#6 => formNone w .ovl
    | 0x35#6 => formRowCol w .tog
    | 0x38#6 => formNone w .encode
    | 0x39#6 => formNone w .decode
    | _ => .error .reservedOpcode

/-! ### The encoder (R40, R49) -/

/-- `op·2^26 + idx·2^21 + imm`, with `z` 0 (R40). -/
def commandWord (op : BitVec 6) (idx : BitVec 5) (imm : BitVec 20) : Word := op ++ idx ++ 0#1 ++ imm

/-- The opcode of a command (R42). -/
def Instr.opcode : Instr → BitVec 6
  | .nop => 0x00
  | .rst => 0x01
  | .wrpay _ _ => 0x08
  | .rdpay _ => 0x09
  | .wrlen _ => 0x0A
  | .rdlen => 0x0B
  | .wrmsg _ _ => 0x0C
  | .rdmsg _ => 0x0D
  | .wrcw _ _ => 0x0E
  | .rdcw _ => 0x0F
  | .wrrow _ _ => 0x10
  | .rdrow _ => 0x11
  | .rdstat => 0x12
  | .build => 0x18
  | .unpk => 0x19
  | .henc _ => 0x20
  | .henca => 0x21
  | .henci _ => 0x22
  | .hdec _ => 0x28
  | .hdeca => 0x29
  | .hdeci _ => 0x2A
  | .place => 0x30
  | .extr => 0x31
  | .ovl => 0x34
  | .tog _ _ => 0x35
  | .encode => 0x38
  | .decode => 0x39

/-- The `idx` operand of a command, 0 when it has none (R40). -/
def Instr.idx : Instr → BitVec 5
  | .wrpay pos _ => pos
  | .rdpay pos => pos
  | .wrmsg pos _ => pos
  | .rdmsg pos => pos
  | .wrcw ch _ => ch.setWidth 5
  | .rdcw ch => ch.setWidth 5
  | .wrrow row _ => row
  | .rdrow row => row
  | .henc ch => ch.setWidth 5
  | .hdec ch => ch.setWidth 5
  | .tog row _ => row
  | .nop => 0
  | .rst => 0
  | .wrlen _ => 0
  | .rdlen => 0
  | .rdstat => 0
  | .build => 0
  | .unpk => 0
  | .henca => 0
  | .henci _ => 0
  | .hdeca => 0
  | .hdeci _ => 0
  | .place => 0
  | .extr => 0
  | .ovl => 0
  | .encode => 0
  | .decode => 0

/-- The `imm` operand of a command, 0 when it has none (R40). -/
def Instr.imm : Instr → BitVec 20
  | .wrpay _ v => v.setWidth 20
  | .wrlen n => n.setWidth 20
  | .wrmsg _ v => v.setWidth 20
  | .wrcw _ v => v.setWidth 20
  | .wrrow _ v => v
  | .henci v => v.setWidth 20
  | .hdeci v => v.setWidth 20
  | .tog _ col => col.setWidth 20
  | .nop => 0
  | .rst => 0
  | .rdpay _ => 0
  | .rdlen => 0
  | .rdmsg _ => 0
  | .rdcw _ => 0
  | .rdrow _ => 0
  | .rdstat => 0
  | .build => 0
  | .unpk => 0
  | .henc _ => 0
  | .henca => 0
  | .hdec _ => 0
  | .hdeca => 0
  | .place => 0
  | .extr => 0
  | .ovl => 0
  | .encode => 0
  | .decode => 0

/-- The word of a command: the inverse of `decode` on legal commands (R49). -/
def encode (i : Instr) : Word := commandWord i.opcode i.idx i.imm

/-! ### The opcode map as the manual prints it (R42) -/

/-- The limits on `idx` and `imm` that a row checks by value; each holds for every value of its field where the row has
no check. -/
structure OpcodeRow where
  /-- The row's mnemonic. -/
  mnemonic : String
  /-- The row's `match` column. -/
  matchBits : Word
  /-- The row's `mask` column. -/
  mask : Word
  /-- Greatest legal `idx`. -/
  idxMax : Nat := 31
  /-- Greatest legal `imm`. -/
  immMax : Nat := 0xFFFFF
  deriving DecidableEq, Repr

/-- Rows with `op` 0x00 to 0x12: control and register access. -/
def opcodeRowsAccess : List OpcodeRow := [
  { mnemonic := "NOP",    matchBits := 0x00000000, mask := 0xFFFFFFFF },
  { mnemonic := "RST",    matchBits := 0x04000000, mask := 0xFFFFFFFF },
  { mnemonic := "WRPAY",  matchBits := 0x20000000, mask := 0xFC1FFF00, idxMax := 21 },
  { mnemonic := "RDPAY",  matchBits := 0x24000000, mask := 0xFC1FFFFF, idxMax := 21 },
  { mnemonic := "WRLEN",  matchBits := 0x28000000, mask := 0xFFFFFFE0 },
  { mnemonic := "RDLEN",  matchBits := 0x2C000000, mask := 0xFFFFFFFF },
  { mnemonic := "WRMSG",  matchBits := 0x30000000, mask := 0xFC1FFF00, idxMax := 21 },
  { mnemonic := "RDMSG",  matchBits := 0x34000000, mask := 0xFC1FFFFF, idxMax := 21 },
  { mnemonic := "WRCW",   matchBits := 0x38000000, mask := 0xFE1F0000 },
  { mnemonic := "RDCW",   matchBits := 0x3C000000, mask := 0xFE1FFFFF },
  { mnemonic := "WRROW",  matchBits := 0x40000000, mask := 0xFC100000, idxMax := 19 },
  { mnemonic := "RDROW",  matchBits := 0x44000000, mask := 0xFC1FFFFF, idxMax := 19 },
  { mnemonic := "RDSTAT", matchBits := 0x48000000, mask := 0xFFFFFFFF }]

/-- Rows with `op` 0x18 to 0x39: the codec. -/
def opcodeRowsCodec : List OpcodeRow := [
  { mnemonic := "BUILD",  matchBits := 0x60000000, mask := 0xFFFFFFFF },
  { mnemonic := "UNPK",   matchBits := 0x64000000, mask := 0xFFFFFFFF },
  { mnemonic := "HENC",   matchBits := 0x80000000, mask := 0xFE1FFFFF },
  { mnemonic := "HENCA",  matchBits := 0x84000000, mask := 0xFFFFFFFF },
  { mnemonic := "HENCI",  matchBits := 0x88000000, mask := 0xFFFFF800 },
  { mnemonic := "HDEC",   matchBits := 0xA0000000, mask := 0xFE1FFFFF },
  { mnemonic := "HDECA",  matchBits := 0xA4000000, mask := 0xFFFFFFFF },
  { mnemonic := "HDECI",  matchBits := 0xA8000000, mask := 0xFFFF0000 },
  { mnemonic := "PLACE",  matchBits := 0xC0000000, mask := 0xFFFFFFFF },
  { mnemonic := "EXTR",   matchBits := 0xC4000000, mask := 0xFFFFFFFF },
  { mnemonic := "OVL",    matchBits := 0xD0000000, mask := 0xFFFFFFFF },
  { mnemonic := "TOG",    matchBits := 0xD4000000, mask := 0xFC1FFFE0, idxMax := 19, immMax := 19 },
  { mnemonic := "ENCODE", matchBits := 0xE0000000, mask := 0xFFFFFFFF },
  { mnemonic := "DECODE", matchBits := 0xE4000000, mask := 0xFFFFFFFF }]

/-- The 27 rows of R42. -/
def opcodeTable : List OpcodeRow := opcodeRowsAccess ++ opcodeRowsCodec

/-- A word is the command of a row: it matches under the mask and the value checks of the row hold (R42). -/
def rowAccepts (row : OpcodeRow) (w : Word) : Bool :=
  decide (w &&& row.mask = row.matchBits) && decide ((idxField w).toNat ≤ row.idxMax)
    && decide ((immField w).toNat ≤ row.immMax)

/-- The mnemonic of a command, as R42 spells it. -/
def Instr.mnemonic : Instr → String
  | .nop => "NOP"
  | .rst => "RST"
  | .wrpay _ _ => "WRPAY"
  | .rdpay _ => "RDPAY"
  | .wrlen _ => "WRLEN"
  | .rdlen => "RDLEN"
  | .wrmsg _ _ => "WRMSG"
  | .rdmsg _ => "RDMSG"
  | .wrcw _ _ => "WRCW"
  | .rdcw _ => "RDCW"
  | .wrrow _ _ => "WRROW"
  | .rdrow _ => "RDROW"
  | .rdstat => "RDSTAT"
  | .build => "BUILD"
  | .unpk => "UNPK"
  | .henc _ => "HENC"
  | .henca => "HENCA"
  | .henci _ => "HENCI"
  | .hdec _ => "HDEC"
  | .hdeca => "HDECA"
  | .hdeci _ => "HDECI"
  | .place => "PLACE"
  | .extr => "EXTR"
  | .ovl => "OVL"
  | .tog _ _ => "TOG"
  | .encode => "ENCODE"
  | .decode => "DECODE"

/-- The command our decoder reads from a word whose bits are numbered as spec/opcode_table.json numbers them: a command
is one 32-bit word, bit 0 its least significant, and bits above `nbits` are 0 (DEDUCED, notes/assumptions/12.md). -/
def decodeTableWord (nbits w : Nat) : Option Instr :=
  match decode (BitVec.ofNat 32 (w % 2 ^ nbits)) with
  | .ok i => some i
  | .error _ => none

end Sys2Proof
end

