-- ==== Sys2Proof/Machine/Bits.lean ====
section
/-!
DEFINITION. Bit sequences, parity, register files and grid cells: the notation of spec/00_scope.md (R2, R3, R4) as
functions. Every other file reaches a bit, an element or a cell through these.
-/

namespace Sys2Proof.Machine

/-- `Σ s[j]·2^j` of a bit sequence (R2). -/
def natOfSeq : List Bool → Nat
  | [] => 0
  | b :: bs => b.toNat + 2 * natOfSeq bs

/-- The first `n` bits of a sequence as a field: element `j` at field bit `j` (R2). -/
def ofSeq (n : Nat) (bits : List Bool) : BitVec n := BitVec.ofNat n (natOfSeq bits)

/-- The `n`-bit sequence whose element `j` is `f j`. -/
def ofBits (n : Nat) (f : Nat → Bool) : BitVec n := ofSeq n ((List.range n).map f)

/-- A field as a sequence, element 0 first (R2). -/
def bitsOf {n : Nat} (x : BitVec n) : List Bool := (List.range n).map x.getLsbD

/-- `x` with element `i` replaced by `b`. -/
def setBit {n : Nat} (x : BitVec n) (i : Nat) (b : Bool) : BitVec n :=
  ofBits n fun k => if k = i then b else x.getLsbD k

/-- The exclusive-or of a list of bits, 0 for the empty list (R4). -/
def xorAll : List Bool → Bool
  | [] => false
  | b :: bs => b ^^ xorAll bs

/-- The parity of the elements of `x` at the given indices (R4). -/
def parityAt {n : Nat} (x : BitVec n) (indices : List Nat) : Bool := xorAll (indices.map x.getLsbD)

/-- The register file whose element `i` is `f i`. -/
def tabulate {α : Type} (n : Nat) (f : Nat → α) : Vector α n := ⟨((List.range n).map f).toArray, by simp⟩

/-- Element `i` of a register file; 0 beyond its end, where no command reads (R34). -/
def readAt {w n : Nat} (xs : Vector (BitVec w) n) (i : Nat) : BitVec w := xs[i]?.getD 0

/-- The register file with element `i` replaced; no effect beyond its end, where no command writes (R34). -/
def writeAt {w n : Nat} (xs : Vector (BitVec w) n) (i : Nat) (v : BitVec w) : Vector (BitVec w) n :=
  xs.setIfInBounds i v

/-- `GRID[r][c]` (R3). -/
def gridCell (g : Grid) (r c : Nat) : Bool := (readAt g r).getLsbD c

/-- The grid whose cell `(r, c)` is `f r c`. -/
def gridOf (f : Nat → Nat → Bool) : Grid := tabulate Config.gridN fun r => ofBits Config.gridN (f r)

/-- The grid with cell `(r, c)` replaced by `b`. -/
def setCell (g : Grid) (r c : Nat) (b : Bool) : Grid := writeAt g r (setBit (readAt g r) c b)

end Sys2Proof.Machine
end

