-- ==== Sys2Proof/Machine/Hamming.lean ====
section
/-!
DEFINITION. The Extended Hamming(16,11) encoder and decoder as functions: spec/42_hamming_encoder.md R100 and
spec/43_hamming_decoder.md R110 to R113, R119, and the scan over sixteen codewords that R121 and R153 share.
-/

namespace Sys2Proof.Machine

/-! ### Encoder -/

/-- The indices in 1..15 covered by parity position `p` (R100, R101). -/
def covered (p : Nat) : List Nat := (List.range Config.cwBits).filter fun i => i &&& p != 0

/-- Step 1 of R100: the data bits at their fixed indices, the parity bits still 0. -/
def placeData (d : Chunk) : Codeword :=
  ofBits Config.cwBits fun i =>
    match Config.dataIdx.idxOf? i with
    | some j => d.getLsbD j
    | none => false

/-- Step 2 of R100 for one parity position: the bit that makes the parity over its covered set even. -/
def placeParity (cw : Codeword) (p : Nat) : Codeword :=
  setBit cw p (parityAt cw ((covered p).filter fun i => i != p))

/-- `henc` (R100). -/
def henc (d : Chunk) : Codeword :=
  let cw := Config.parityIdx.foldl placeParity (placeData d)
  setBit cw 0 (parityAt cw ((List.range Config.cwBits).filter fun i => i != 0))

/-! ### Decoder -/

/-- `check(p)` of R110: the parity of the received word over the covered set, `p` included. -/
def checkBit (r : Codeword) (p : Nat) : Bool := parityAt r (covered p)

/-- `syndrome` (R110): the parity positions whose check failed, or-ed together. -/
def syndrome (r : Codeword) : BitVec 4 :=
  (if checkBit r 1 then 1#4 else 0#4) ||| (if checkBit r 2 then 2#4 else 0#4)
    ||| (if checkBit r 4 then 4#4 else 0#4) ||| (if checkBit r 8 then 8#4 else 0#4)

/-- `overall` (R111): the parity of all 16 bits as received. -/
def overall (r : Codeword) : Bool := parityAt r (List.range Config.cwBits)

/-- The data bits at the fixed data indices (R113). -/
def extractData (r : Codeword) : Chunk := ofSeq Config.dataBits (Config.dataIdx.map r.getLsbD)

/-- What `hdec` returns (R113). `ok` is `1 - doubleError` (92_eei_decisions.md D11; notes/assumptions/8.md). -/
structure Verdict where
  /-- `ok`. -/
  ok : Bool
  /-- `corrected`. -/
  corrected : Bool
  /-- `doubleError`. -/
  doubleError : Bool
  /-- `overall` (R111). -/
  overall : Bool
  /-- `syndrome` (R110). -/
  syndrome : BitVec 4
  /-- `data`: the extraction after any correction. -/
  data : Chunk
  /-- `fixed`: the word after any correction. -/
  fixed : Codeword
  deriving DecidableEq, Repr

/-- The outputs for a received word once the table of R112 has chosen the corrected word and the two flags. -/
def verdictOf (r fixed : Codeword) (corrected doubleError : Bool) : Verdict :=
  { ok := !doubleError
    corrected := corrected
    doubleError := doubleError
    overall := overall r
    syndrome := syndrome r
    data := extractData fixed
    fixed := fixed }

/-- `hdec` (R113): the four rows of the table of R112, in its order. In the double-error row nothing is corrected and `data`
is the extraction from the word as received (92_eei_decisions.md D12; notes/assumptions/8.md). -/
def hdec (r : Codeword) : Verdict :=
  match overall r, decide (syndrome r = 0) with
  | false, true => verdictOf r r false false
  | true, true => verdictOf r (setBit r 0 (!r.getLsbD 0)) true false
  | true, false => verdictOf r (setBit r (syndrome r).toNat (!r.getLsbD (syndrome r).toNat)) true false
  | false, false => verdictOf r r false true

/-- `verdict(r)` of R119: the outputs packed in the 20-bit response value. -/
def verdictWord (v : Verdict) : Value :=
  BitVec.ofNat 20 (v.data.toNat + 2 ^ 11 * v.corrected.toNat + 2 ^ 12 * v.doubleError.toNat
    + 2 ^ 13 * v.overall.toNat + 2 ^ 14 * v.syndrome.toNat + 2 ^ 18 * v.ok.toNat)

/-! ### The scan of sixteen codewords (R121, R153) -/

/-- How a scan ends. -/
inductive ScanEnd where
  /-- The lowest-numbered double error: its chunk, its verdict, and the corrected chunks before it (R121). -/
  | rejected (ch : Nat) (v : Verdict) (count : Nat)
  /-- No double error: the corrected chunks and the data of every chunk in order (R121). -/
  | accepted (count : Nat) (data : List Chunk)
  deriving DecidableEq, Repr

/-- Examine the listed chunks in order, stopping at the first double error (R121). `count` and `data` are what the chunks
already examined gave. -/
def scanFrom (cws : Codewords) (count : Nat) (data : List Chunk) : List Nat → ScanEnd
  | [] => .accepted count data
  | ch :: rest =>
    let v := hdec (readAt cws ch)
    if v.doubleError then .rejected ch v count
    else scanFrom cws (count + v.corrected.toNat) (data ++ [v.data]) rest

/-- The scan in chunk order 0..15 (R121). -/
def scanChunks (cws : Codewords) : ScanEnd := scanFrom cws 0 [] (List.range Config.nChunks)

end Sys2Proof.Machine
end

