-- ==== Sys2Proof/Machine/Mapping.lean ====
section
/-!
DEFINITION. The chunk-to-grid mapper and the finder overlay as functions: spec/44_chunk_grid_mapper.md R130 to R134
and spec/45_grid_overlay.md R140 to R143.
-/

namespace Sys2Proof.Machine

/-! ### Mapper -/

/-- `cell_of(b, ch)` (R131): bit position first, chunk second. -/
def cellOf (b ch : Nat) : Nat × Nat :=
  (Config.finderW + Config.regionN * (b / 4) + ch / 4, Config.finderW + Config.regionN * (b % 4) + ch % 4)

/-- `bit_of(row, col)` (R132), for a data cell. -/
def bitOf (row col : Nat) : Nat × Nat :=
  (4 * ((row - 4) / 4) + (col - 4) / 4, 4 * ((row - 4) % 4) + (col - 4) % 4)

/-- A finder cell: `r < 4` or `c < 4` (R15). -/
def inFinder (r c : Nat) : Bool := decide (r < Config.finderW) || decide (c < Config.finderW)

/-- `place` (R133): the data region holds the codewords; the finder cells are those of `g` (R133 defines none). Each data
cell is written by the one pair that `cell_of` sends to it, which is its `bit_of` (R132; DEDUCED, notes/assumptions/14.md). -/
def placeCells (cws : Codewords) (g : Grid) : Grid :=
  gridOf fun r c =>
    if inFinder r c then gridCell g r c else (readAt cws (bitOf r c).2).getLsbD (bitOf r c).1

/-- `extract` (R134). -/
def extract (g : Grid) : Codewords :=
  tabulate Config.nChunks fun ch =>
    ofBits Config.cwBits fun b => gridCell g (cellOf b ch).1 (cellOf b ch).2

/-! ### Overlay -/

/-- The grid with every cell of a region set to one value: one line of the sequence of R140. -/
def fillCells (region : Nat → Nat → Bool) (b : Bool) (g : Grid) : Grid :=
  gridOf fun r c => if region r c then b else gridCell g r c

/-- The four isolated marker cells of R140. -/
def isMarker (r c : Nat) : Bool :=
  (r == 1 && c == 3) || (r == 3 && c == 1) || (r == 1 && c == 19) || (r == 19 && c == 1)

/-- `overlay` (R140), the source's sequence of writes in its order. -/
def overlay (g : Grid) : Grid :=
  let g := fillCells inFinder false g
  let g := fillCells (fun r _ => r == 0) true g
  let g := fillCells (fun _ c => c == 0) true g
  let g := fillCells (fun r c => r == 2 && decide (2 ≤ c)) true g
  let g := fillCells (fun r c => c == 2 && decide (2 ≤ r)) true g
  fillCells isMarker true g

/-- `finder(r, c)` (R141), the closed form of the pattern. -/
def finder (r c : Nat) : Bool :=
  r == 0 || c == 0 || (r == 2 && decide (2 ≤ c)) || (c == 2 && decide (2 ≤ r)) || isMarker r c

/-- `fresh_grid()` (R143). -/
def freshGrid : Grid := overlay (gridOf fun _ _ => false)

end Sys2Proof.Machine
end

