-- ==== Sys2Proof/Machine/State.lean ====
section
/-!
DEFINITION. The state of the block (spec/10_state.md R10 to R16), its ports, the reasons a step can stop, and the
state after reset (R22).
-/

namespace Sys2Proof.Machine

/-- The status register (R16): seven fields, 17 bits. -/
structure Stat where
  /-- `PTL`: the last `BUILD` or `ENCODE` faulted with PayloadTooLarge. -/
  ptl : Bool
  /-- `DBE`: `doubleError` of the last codeword examined. -/
  dbe : Bool
  /-- `COR`: `corrected` of the last codeword examined. -/
  cor : Bool
  /-- `OVR`: `overall` of the last codeword examined. -/
  ovr : Bool
  /-- `SYN`: `syndrome` of the last codeword examined. -/
  syn : BitVec 4
  /-- `ECH`: the chunk index of the last codeword examined. -/
  ech : BitVec 4
  /-- `CORR`: corrected chunks counted by the last `HDECA` or `DECODE`. -/
  corr : BitVec 5
  deriving DecidableEq, Repr

/-- Every field 0 (R22). -/
def Stat.zero : Stat :=
  { ptl := false, dbe := false, cor := false, ovr := false, syn := 0, ech := 0, corr := 0 }

/-- The response codes (R44). -/
inductive RespCode where
  /-- 0: the command did what its rule says. -/
  | ok
  /-- 1: `BUILD` or `ENCODE` found `PLEN > 21`. -/
  | payloadTooLarge
  /-- 2: `HDECA` or `DECODE` met a double error. -/
  | doubleBitErrorRejected
  /-- 3: the word is not a legal command. -/
  | illegalCommand
  deriving DecidableEq, Repr

/-- A response (R43). -/
structure Response where
  /-- Bits 31..30 of the response word. -/
  code : RespCode
  /-- Bits 19..0 of the response word. -/
  value : Value
  deriving DecidableEq, Repr

/-- What reaches the block from outside: a command word with its filler draw (R5, R84), or a hardware reset (R190; DESIGN CHOICE,
notes/assumptions/4.md). -/
inductive Event where
  /-- The host issues a command word. The draw is read only by `BUILD` and `ENCODE`. -/
  | command (word : Word) (draw : Draw)
  /-- A hardware reset between two commands. -/
  | reset
  deriving DecidableEq, Repr

/-- The state: the six registers of R10, then the model's own three fields for the input and output ports. -/
structure State where
  /-- `PAY` (R11). -/
  pay : Payload
  /-- `PLEN` (R12). -/
  plen : BitVec 5
  /-- `MSG` (R13). -/
  msg : Message
  /-- `CW` (R14). -/
  cw : Codewords
  /-- `GRID` (R15). -/
  grid : Grid
  /-- `STAT` (R16). -/
  stat : Stat
  /-- The host's inputs not yet taken, oldest first (DESIGN CHOICE, notes/assumptions/1.md). -/
  pending : List Event
  /-- The draw supplied with the command being executed: a free value (R84; DESIGN CHOICE, notes/assumptions/2.md). -/
  draw : Draw
  /-- The responses given so far, newest first (R43; DESIGN CHOICE, notes/assumptions/3.md). -/
  responses : List Response
  deriving DecidableEq, Repr

/-- Reasons for the machine to stop. There are none: every command word in every state yields a response and a next state
(R177), and a fault of the spec is a response (R170, R176). Safe: nothing is left out by it (notes/assumptions/6.md). -/
inductive Fault where
  deriving DecidableEq, Repr

/-- Reasons to give an instruction no meaning. -/
inductive Refusal where
  /-- Raised only by an arm of `exec` for an instruction without a meaning. No arm raises it now. Safe: the run stops. -/
  | notModelled (mnemonic : String)
  deriving DecidableEq, Repr

/-- What one command answers. -/
abbrev Result := Host.Outcome State Fault Refusal

/-- The state after reset: the registers as R22 gives them (notes/assumptions/5.md); no input waiting, no draw, no response yet (DESIGN CHOICE,
notes/assumptions/1.md to 3.md). -/
def State.reset : State :=
  { pay := tabulate Config.msgBytes fun _ => 0
    plen := 0
    msg := 0
    cw := tabulate Config.nChunks fun _ => 0
    grid := freshGrid
    stat := Stat.zero
    pending := []
    draw := 0
    responses := [] }

end Sys2Proof.Machine
end

