-- ==== Sys2Proof/Machine/Flags.lean ====
section
/-!
DEFINITION. The `STAT` fields: who writes them (spec/10_state.md R16, R23) and the word `RDSTAT` reads
(spec/40_register_access.md R72).
-/

namespace Sys2Proof.Machine

/-- `PTL` after a `BUILD` or an `ENCODE` (R89, R151). -/
def Stat.withPtl (st : Stat) (tooLarge : Bool) : Stat := { st with ptl := tooLarge }

/-- The five verdict fields after examining chunk `ch` (R120). -/
def Stat.withVerdict (st : Stat) (ch : Nat) (v : Verdict) : Stat :=
  { st with dbe := v.doubleError, cor := v.corrected, ovr := v.overall, syn := v.syndrome, ech := BitVec.ofNat 4 ch }

/-- `CORR` after an `HDECA` or a `DECODE` (R121). -/
def Stat.withCorr (st : Stat) (count : Nat) : Stat := { st with corr := BitVec.ofNat 5 count }

/-- What `RDSTAT` reads (R72); bits 19..17 are 0 (R16). -/
def statWord (st : Stat) : Value :=
  BitVec.ofNat 20 (st.ptl.toNat + 2 * st.dbe.toNat + 4 * st.cor.toNat + 8 * st.ovr.toNat + 16 * st.syn.toNat
    + 256 * st.ech.toNat + 4096 * st.corr.toNat)

end Sys2Proof.Machine
end

