-- ==== Sys2Proof/Machine/Ops.lean ====
section
/-!
DEFINITION. The named operations over the state: one write per register, the response (spec/30_encoding.md R43,
R44), the three faults as one operation (spec/60_exceptions.md R170, R176), the reset (spec/70_reset_and_hazards.md R190) and
taking the next input (spec/00_scope.md R5).
-/

namespace Sys2Proof.Machine

/-! ### Register writes -/

/-- `PAY <- v`. -/
def State.withPay (s : State) (v : Payload) : State := { s with pay := v }

/-- `PLEN <- v`. -/
def State.withPlen (s : State) (v : BitVec 5) : State := { s with plen := v }

/-- `MSG <- v`. -/
def State.withMsg (s : State) (v : Message) : State := { s with msg := v }

/-- `CW <- v`. -/
def State.withCw (s : State) (v : Codewords) : State := { s with cw := v }

/-- `GRID <- v`. -/
def State.withGrid (s : State) (v : Grid) : State := { s with grid := v }

/-- `STAT <- v`. -/
def State.withStat (s : State) (v : Stat) : State := { s with stat := v }

/-! ### Responses -/

/-- The number of a response code (R44). -/
def codeBits : RespCode → BitVec 2
  | .ok => 0
  | .payloadTooLarge => 1
  | .doubleBitErrorRejected => 2
  | .illegalCommand => 3

/-- The 32-bit response word: code, ten zero bits, value (R43). -/
def Response.word (r : Response) : Word := codeBits r.code ++ 0#10 ++ r.value

/-- `respond(code, value)`: the command's one response (R43). -/
def State.respond (s : State) (code : RespCode) (value : Value) : State :=
  { s with responses := ⟨code, value⟩ :: s.responses }

/-- The end of a command that did what its rule says. -/
def respondOk (s : State) (value : Value) : Result := .next (s.respond .ok value)

/-! ### Faults -/

/-- The three faults of the block (R170), with what the response and the `STAT` writes of each need. -/
inductive BlockFault where
  /-- PayloadTooLarge (R171). -/
  | payloadTooLarge
  /-- DoubleBitErrorRejected at a chunk, with its verdict and the corrected chunks before it (R172). -/
  | doubleBitErrorRejected (ch : Nat) (v : Verdict) (count : Nat)
  /-- IllegalCommand (R173). -/
  | illegalCommand
  deriving DecidableEq, Repr

/-- Taking a fault: the `STAT` writes that R170 lists for it and its response, and nothing else. There is no trap: no
control transfer, no saved state, no handler, no mode (R176), and nothing to return from (R177). -/
def takeFault (s : State) : BlockFault → Result
  | .payloadTooLarge => .next ((s.withStat (s.stat.withPtl true)).respond .payloadTooLarge 0)
  | .doubleBitErrorRejected ch v count =>
    .next ((s.withStat ((s.stat.withVerdict ch v).withCorr count)).respond .doubleBitErrorRejected (BitVec.ofNat 20 ch))
  | .illegalCommand => .next (s.respond .illegalCommand 0)

/-- An illegal command (R45, R173). -/
def illegalCommand (s : State) : Result := takeFault s .illegalCommand

/-! ### Reset -/

/-- The six registers at their reset values; the ports keep what they hold (R22, R61, R190). -/
def State.resetRegisters (s : State) : State :=
  { State.reset with pending := s.pending, draw := s.draw, responses := s.responses }

/-! ### Inputs -/

/-- Take the next input, with the state it leaves: the draw port holds the draw that came with a command (R84). -/
def State.takeEvent (s : State) : Option (Event × State) :=
  match s.pending with
  | [] => none
  | .command word draw :: rest => some (.command word draw, { s with pending := rest, draw := draw })
  | .reset :: rest => some (.reset, { s with pending := rest })

/-- The host issues a command ahead of any other input, with the draw now at the port. -/
def State.issueNext (s : State) (word : Word) : State :=
  { s with pending := .command word s.draw :: s.pending }

end Sys2Proof.Machine
end

