-- ==== Sys2Proof/Machine/Control.lean ====
section
/-!
DEFINITION. The control commands, spec/40_register_access.md R60 and R61.
-/

namespace Sys2Proof.Machine

/-- `NOP` (R60). -/
def execNop (s : State) : Result := respondOk s 0

/-- `RST` (R61). -/
def execRst (s : State) : Result := respondOk s.resetRegisters 0

end Sys2Proof.Machine
end

