-- ==== Sys2Proof/Machine/Packing.lean ====
section
/-!
DEFINITION. The functions of the bitpacker, spec/41_bitpacker.md R80 to R87, and the two views of the message
(spec/10_state.md R13).
-/

namespace Sys2Proof.Machine

/-- The bits of one byte, most significant first (R80). -/
def packByte (v : Byte) : List Bool := (List.range 8).map fun j => v.getLsbD (7 - j)

/-- `pack` (R80). -/
def pack (bytes : List Byte) : List Bool := bytes.flatMap packByte

/-- The byte whose bits, most significant first, are `f 0, …, f 7`. -/
def byteOf (f : Nat → Bool) : Byte := ofBits 8 fun i => f (7 - i)

/-- `unpack` (R81): the final byte is padded with zeros on the right. -/
def unpack (bits : List Bool) : List Byte :=
  (List.range ((bits.length + 7) / 8)).map fun k => byteOf fun j => bits.getD (8 * k + j) false

/-- The number of filler bits of an `n`-byte payload, `168 - 8n` (R83). -/
def fillerCount (n : Nat) : Nat := Config.msgBits - 8 * (n + 1)

/-- `build_message` (R83) with the draw `rnd` (R84); `none` is the fault PayloadTooLarge, checked first. -/
def buildMessage (payload : Payload) (n : Nat) (rnd : Draw) : Option Message :=
  if n > Config.maxPayload then none
  else some (ofSeq Config.msgBits
    (pack (payload.toList.take n ++ [Config.terminator]) ++ (List.range (fillerCount n)).map rnd.getLsbD))

/-- Chunk `i` of a message: one element of `split` (R85). -/
def chunkOf (m : Message) (i : Nat) : Chunk := m.extractLsb' (11 * i) 11

/-- `split` (R85). -/
def split (m : Message) : Vector Chunk 16 := tabulate Config.nChunks (chunkOf m)

/-- `join` (R86). -/
def join (d : Vector Chunk 16) : Message := ofBits Config.msgBits fun k => (readAt d (k / 11)).getLsbD (k % 11)

/-- The message with chunk `i` replaced (R120). -/
def writeChunk (m : Message) (i : Nat) (d : Chunk) : Message :=
  ofBits Config.msgBits fun k => if k / 11 = i then d.getLsbD (k % 11) else m.getLsbD k

/-- Message byte `k` (R67). -/
def msgByte (m : Message) (k : Nat) : Byte := byteOf fun j => m.getLsbD (8 * k + j)

/-- The message with byte `k` replaced, most significant bit first (R66). -/
def writeMsgByte (m : Message) (k : Nat) (v : Byte) : Message :=
  ofBits Config.msgBits fun i => if i / 8 = k then v.getLsbD (7 - i % 8) else m.getLsbD i

/-- The 22 bytes of a message (R81 applied to the 176 bits of `MSG`). -/
def messageBytes (m : Message) : List Byte := unpack (bitsOf m)

/-- `term_scan` (R87): the index of the first 0x00, or the number of bytes (22) when there is none. -/
def termScan (bytes : List Byte) : Nat := bytes.findIdx (· == Config.terminator)

end Sys2Proof.Machine
end

