-- ==== Sys2Proof/Machine/Bitpacker.lean ====
section
/-!
DEFINITION. The bitpacker's commands, spec/41_bitpacker.md R89 and R90, and the operations that `ENCODE` and
`DECODE` share with them.
-/

namespace Sys2Proof.Machine

/-- The writes of a `BUILD` that does not fault: `MSG` from `PAY`, `PLEN` and the draw, and `STAT.PTL <- 0`; `none` when
`PLEN > 21`, before anything else (R89). -/
def buildOp (s : State) : Option State :=
  match buildMessage s.pay s.plen.toNat s.draw with
  | some m => some ((s.withMsg m).withStat (s.stat.withPtl false))
  | none => none

/-- The response value of `BUILD` and `ENCODE`: the filler bits consumed (R89, R151). -/
def fillerValue (s : State) : Value := BitVec.ofNat 20 (fillerCount s.plen.toNat)

/-- The writes of `UNPK`: all 22 payload bytes and the payload length (R90). -/
def unpkOp (s : State) : State :=
  (s.withPay (tabulate Config.msgBytes fun k => (messageBytes s.msg).getD k 0)).withPlen
    (BitVec.ofNat 5 (termScan (messageBytes s.msg)))

/-- `BUILD` (R89). -/
def execBuild (s : State) : Result :=
  match buildOp s with
  | some t => respondOk t (fillerValue s)
  | none => takeFault s .payloadTooLarge

/-- `UNPK` (R90). -/
def execUnpk (s : State) : Result := respondOk (unpkOp s) (BitVec.ofNat 20 (termScan (messageBytes s.msg)))

end Sys2Proof.Machine
end

