-- ==== Sys2Proof/Machine/Decoder.lean ====
section
/-!
DEFINITION. The decoder's commands, spec/43_hamming_decoder.md R120 to R122.
-/

namespace Sys2Proof.Machine

/-- The data of sixteen chunks as a message (R86). -/
def joinList (data : List Chunk) : Message := join (tabulate Config.nChunks fun i => data.getD i 0)

/-- The writes of an `HDECA` that meets no double error: `MSG`, `CORR`, and the verdict fields of chunk 15, the last one
examined (R121). Of the writes to one field the last stands, since a command is one step (DEDUCED, notes/assumptions/13.md). -/
def hdecaAccept (s : State) (count : Nat) (data : List Chunk) : State :=
  (s.withMsg (joinList data)).withStat ((s.stat.withVerdict 15 (hdec (readAt s.cw 15))).withCorr count)

/-- `HDEC ch` (R120): a double error is no fault here, and leaves `MSG` alone. -/
def execHdec (ch : BitVec 4) (s : State) : Result :=
  let v := hdec (readAt s.cw ch.toNat)
  let t := s.withStat (s.stat.withVerdict ch.toNat v)
  respondOk (if v.doubleError then t else t.withMsg (writeChunk s.msg ch.toNat v.data)) (verdictWord v)

/-- `HDECA` (R121). -/
def execHdeca (s : State) : Result :=
  match scanChunks s.cw with
  | .accepted count data => respondOk (hdecaAccept s count data) (BitVec.ofNat 20 count)
  | .rejected ch v count => takeFault s (.doubleBitErrorRejected ch v count)

/-- `HDECI v` (R122). -/
def execHdeci (v : Codeword) (s : State) : Result := respondOk s (verdictWord (hdec v))

end Sys2Proof.Machine
end

