-- ==== Sys2Proof/Machine/Encoder.lean ====
section
/-!
DEFINITION. The encoder's commands, spec/42_hamming_encoder.md R103 to R105.
-/

namespace Sys2Proof.Machine

/-- The writes of `HENCA`: all sixteen codewords at once (R104). -/
def hencaOp (s : State) : State :=
  s.withCw (tabulate Config.nChunks fun ch => henc (readAt (split s.msg) ch))

/-- `HENC ch` (R103). -/
def execHenc (ch : BitVec 4) (s : State) : Result :=
  let cw := henc (chunkOf s.msg ch.toNat)
  respondOk (s.withCw (writeAt s.cw ch.toNat cw)) (cw.setWidth 20)

/-- `HENCA` (R104). -/
def execHenca (s : State) : Result := respondOk (hencaOp s) 0

/-- `HENCI v` (R105). -/
def execHenci (v : Chunk) (s : State) : Result := respondOk s ((henc v).setWidth 20)

end Sys2Proof.Machine
end

