-- ==== Sys2Proof/Machine/Operands.lean ====
section
/-!
DEFINITION. The operand forms (spec/30_encoding.md R41, spec/20_memory.md R34): an index within its register file, or
none, which a command answers with IllegalCommand.
-/

namespace Sys2Proof.Machine

/-- A byte position of `PAY` or of the byte view of `MSG`: 0..21 (R34). -/
def bytePos? (pos : BitVec 5) : Option Nat := if pos.toNat < Config.msgBytes then some pos.toNat else none

/-- A row or a column of the grid: 0..19 (R34, R3). -/
def gridIdx? (i : BitVec 5) : Option Nat := if i.toNat < Config.gridN then some i.toNat else none

/-- A command whose rule needs a byte position (R62, R63, R66, R67). A position out of range is answered as its word would be
(DEDUCED, notes/assumptions/11.md). -/
def withBytePos (pos : BitVec 5) (s : State) (run : Nat → Result) : Result :=
  match bytePos? pos with
  | some k => run k
  | none => illegalCommand s

/-- A command whose rule needs a grid row or column (R70, R71, R146); out of range as `withBytePos`. -/
def withGridIdx (i : BitVec 5) (s : State) (run : Nat → Result) : Result :=
  match gridIdx? i with
  | some k => run k
  | none => illegalCommand s

end Sys2Proof.Machine
end

