-- ==== Sys2Proof/Machine/GridCommands.lean ====
section
/-!
DEFINITION. The mapper's commands, spec/44_chunk_grid_mapper.md R136 and R137, and the grid's, spec/45_grid_overlay.md
R145 and R146.
-/

namespace Sys2Proof.Machine

/-- The writes of `PLACE`: the data region, then the overlay (R136). -/
def placeOp (s : State) : State := s.withGrid (overlay (placeCells s.cw s.grid))

/-- The writes of `EXTR`: all sixteen codewords at once (R137). -/
def extrOp (s : State) : State := s.withCw (extract s.grid)

/-- `PLACE` (R136). -/
def execPlace (s : State) : Result := respondOk (placeOp s) 0

/-- `EXTR` (R137). -/
def execExtr (s : State) : Result := respondOk (extrOp s) 0

/-- `OVL` (R145). -/
def execOvl (s : State) : Result := respondOk (s.withGrid (overlay s.grid)) 0

/-- `TOG r, c` (R146): a data cell is inverted and the overlay applied; a finder cell is left alone, and so is the whole
grid. -/
def execTog (row col : BitVec 5) (s : State) : Result :=
  withGridIdx row s fun r => withGridIdx col s fun c =>
    if inFinder r c then respondOk s 0
    else respondOk (s.withGrid (overlay (setCell s.grid r c (!gridCell s.grid r c)))) 1

end Sys2Proof.Machine
end

