-- ==== Sys2Proof/Machine/Pipelines.lean ====
section
/-!
DEFINITION. The pipelines, spec/46_pipelines.md R150 to R154: as functions, and as the commands that compose the
operations of the other families.
-/

namespace Sys2Proof.Machine

/-- `encode_bytes` (R150); `none` is the fault PayloadTooLarge. -/
def encodeBytes (payload : Payload) (n : Nat) (rnd : Draw) : Option Grid :=
  match buildMessage payload n rnd with
  | some m =>
    some (overlay (placeCells (tabulate Config.nChunks fun i => henc (readAt (split m) i)) freshGrid))
  | none => none

/-- What `decode_grid` returns (R153). -/
inductive DecodedGrid where
  /-- The fault DoubleBitErrorRejected at a chunk. -/
  | rejected (ch : Nat)
  /-- The 22 bytes, the payload length and the count of corrected chunks. -/
  | decoded (bytes : List Byte) (n : Nat) (count : Nat)
  deriving DecidableEq, Repr

/-- `decode_grid` (R153). -/
def decodeGrid (g : Grid) : DecodedGrid :=
  match scanChunks (extract g) with
  | .rejected ch _ _ => .rejected ch
  | .accepted count data =>
    .decoded (messageBytes (joinList data)) (termScan (messageBytes (joinList data))) count

/-- The response value of a `DECODE` that accepts: `PLEN' + 32·count` (R154). -/
def decodeValue (plen : BitVec 5) (count : Nat) : Value := BitVec.ofNat 20 (plen.toNat + 32 * count)

/-- `ENCODE` (R151): `BUILD`, `HENCA`, `PLACE` as one command. -/
def execEncode (s : State) : Result :=
  match buildOp s with
  | some t => respondOk (placeOp (hencaOp t)) (fillerValue s)
  | none => takeFault s .payloadTooLarge

/-- `DECODE` (R154): `EXTR`, `HDECA` and, when no chunk is rejected, `UNPK` as one command. -/
def execDecode (s : State) : Result :=
  let t := extrOp s
  match scanChunks t.cw with
  | .accepted count data =>
    let u := unpkOp (hdecaAccept t count data)
    respondOk u (decodeValue u.plen count)
  | .rejected ch v count => takeFault t (.doubleBitErrorRejected ch v count)

end Sys2Proof.Machine
end

