-- ==== Sys2Proof/Machine/RegAccess.lean ====
section
/-!
DEFINITION. The register-access commands, spec/40_register_access.md R62 to R72.
-/

namespace Sys2Proof.Machine

/-- `WRPAY i, v` (R62). -/
def execWrpay (pos : BitVec 5) (v : Byte) (s : State) : Result :=
  withBytePos pos s fun i => respondOk (s.withPay (writeAt s.pay i v)) 0

/-- `RDPAY i` (R63). -/
def execRdpay (pos : BitVec 5) (s : State) : Result :=
  withBytePos pos s fun i => respondOk s ((readAt s.pay i).setWidth 20)

/-- `WRLEN n` (R64): every 5-bit length is legal. -/
def execWrlen (n : BitVec 5) (s : State) : Result := respondOk (s.withPlen n) 0

/-- `RDLEN` (R65). -/
def execRdlen (s : State) : Result := respondOk s (s.plen.setWidth 20)

/-- `WRMSG k, v` (R66). -/
def execWrmsg (pos : BitVec 5) (v : Byte) (s : State) : Result :=
  withBytePos pos s fun k => respondOk (s.withMsg (writeMsgByte s.msg k v)) 0

/-- `RDMSG k` (R67). -/
def execRdmsg (pos : BitVec 5) (s : State) : Result :=
  withBytePos pos s fun k => respondOk s ((msgByte s.msg k).setWidth 20)

/-- `WRCW ch, v` (R68): any 16 bits are accepted. -/
def execWrcw (ch : BitVec 4) (v : Codeword) (s : State) : Result :=
  respondOk (s.withCw (writeAt s.cw ch.toNat v)) 0

/-- `RDCW ch` (R69). -/
def execRdcw (ch : BitVec 4) (s : State) : Result := respondOk s ((readAt s.cw ch.toNat).setWidth 20)

/-- `WRROW r, v` (R70): the row as given, finder cells included; the overlay is not applied. -/
def execWrrow (row : BitVec 5) (v : GridRow) (s : State) : Result :=
  withGridIdx row s fun r => respondOk (s.withGrid (writeAt s.grid r v)) 0

/-- `RDROW r` (R71). -/
def execRdrow (row : BitVec 5) (s : State) : Result :=
  withGridIdx row s fun r => respondOk s (readAt s.grid r)

/-- `RDSTAT` (R72). -/
def execRdstat (s : State) : Result := respondOk s (statWord s.stat)

end Sys2Proof.Machine
end

