-- ==== Sys2Proof/Machine/Dispatch.lean ====
section
/-!
DEFINITION. One arm per command of spec/30_encoding.md R42, each one call of its meaning.
-/

namespace Sys2Proof.Machine

def exec (i : Instr) (s : State) : Host.Outcome State Fault Refusal :=
  match i with
  -- control
  | .nop => Sys2Proof.Machine.execNop s
  | .rst => Sys2Proof.Machine.execRst s
  -- register access
  | .wrpay pos v => Sys2Proof.Machine.execWrpay pos v s
  | .rdpay pos => Sys2Proof.Machine.execRdpay pos s
  | .wrlen n => Sys2Proof.Machine.execWrlen n s
  | .rdlen => Sys2Proof.Machine.execRdlen s
  | .wrmsg pos v => Sys2Proof.Machine.execWrmsg pos v s
  | .rdmsg pos => Sys2Proof.Machine.execRdmsg pos s
  | .wrcw ch v => Sys2Proof.Machine.execWrcw ch v s
  | .rdcw ch => Sys2Proof.Machine.execRdcw ch s
  | .wrrow row v => Sys2Proof.Machine.execWrrow row v s
  | .rdrow row => Sys2Proof.Machine.execRdrow row s
  | .rdstat => Sys2Proof.Machine.execRdstat s
  -- bitpacker
  | .build => Sys2Proof.Machine.execBuild s
  | .unpk => Sys2Proof.Machine.execUnpk s
  -- encoder
  | .henc ch => Sys2Proof.Machine.execHenc ch s
  | .henca => Sys2Proof.Machine.execHenca s
  | .henci v => Sys2Proof.Machine.execHenci v s
  -- decoder
  | .hdec ch => Sys2Proof.Machine.execHdec ch s
  | .hdeca => Sys2Proof.Machine.execHdeca s
  | .hdeci v => Sys2Proof.Machine.execHdeci v s
  -- mapper and grid
  | .place => Sys2Proof.Machine.execPlace s
  | .extr => Sys2Proof.Machine.execExtr s
  | .ovl => Sys2Proof.Machine.execOvl s
  | .tog row col => Sys2Proof.Machine.execTog row col s
  -- pipelines
  | .encode => Sys2Proof.Machine.execEncode s
  | .decode => Sys2Proof.Machine.execDecode s

end Sys2Proof.Machine
end

