-- ==== Sys2Proof/Machine/Step.lean ====
section
/-!
DEFINITION. One step of the block (spec/00_scope.md R5): it takes the next input and completes it. With no input waiting
nothing happens (spec/60_exceptions.md R178).
-/

namespace Sys2Proof.Machine

/-- Run a command word: its command, or the response to an illegal one (R45). -/
def runWord (w : Word) (s : State) : Host.Outcome State Fault Refusal :=
  match decode w with
  | .ok i => exec i s
  | .error _ => illegalCommand s

/-- One step. -/
def step (s : State) : Host.Outcome State Fault Refusal :=
  match s.takeEvent with
  | none => .next s
  | some (.command w _, t) => runWord w t
  | some (.reset, t) => .next t.resetRegisters

/-- `s` with a word, numbered as spec/opcode_table.json numbers its bits, issued as the host's next command. The draw at the
port stays what it is. -/
def State.withFetchWord (s : State) (nbits w : Nat) : State := s.issueNext (BitVec.ofNat 32 (w % 2 ^ nbits))

end Sys2Proof.Machine
end

