-- ==== Sys2Proof/Safety.lean ====
section
/-!
DEFINITION. The terms claims are stated in: what an answer is, which registers two states share, the invariants of
spec/10_state.md section 3, and what it means for received words and grids to differ by flipped bits.
-/

namespace Sys2Proof.Machine

/-! ### Answers -/

/-- The state after a response and nothing else. -/
def answered (s : State) (code : RespCode) (value : Value) : State :=
  { s with responses := ⟨code, value⟩ :: s.responses }

/-- The answer to an illegal command (R45): one response, nothing written. -/
def illegalAnswer (s : State) : Result := .next (answered s .illegalCommand 0)

/-- The answer of a command that faults with PayloadTooLarge (R171): `STAT.PTL` set, nothing else written. -/
def tooLargeAnswer (s : State) : Result :=
  .next (answered { s with stat := { s.stat with ptl := true } } .payloadTooLarge 0)

/-- The legal words of one opcode: `z` is 0 and the operand fields satisfy `fields` (R42, R45). -/
def LegalExactly (op : BitVec 6) (fields : BitVec 5 → BitVec 20 → Prop) : Prop :=
  ∀ w : Word, opField w = op →
    ((∃ i, decode w = .ok i) ↔ zField w = false ∧ fields (idxField w) (immField w))

/-- The operand fields of a command without operands. -/
def noOperands (idx : BitVec 5) (imm : BitVec 20) : Prop := idx = 0 ∧ imm = 0

/-! ### Registers -/

/-- The six registers of R10 agree. -/
def SameRegisters (s t : State) : Prop :=
  t.pay = s.pay ∧ t.plen = s.plen ∧ t.msg = s.msg ∧ t.cw = s.cw ∧ t.grid = s.grid ∧ t.stat = s.stat

/-- The five verdict fields of `STAT` agree (R120). -/
def SameVerdictFields (a b : Stat) : Prop :=
  a.dbe = b.dbe ∧ a.cor = b.cor ∧ a.ovr = b.ovr ∧ a.syn = b.syn ∧ a.ech = b.ech

/-- The 11 message bits of chunk `ch` (R13). -/
def messageChunk (m : Message) (ch : Nat) : Chunk := ofBits 11 fun j => m.getLsbD (11 * ch + j)

/-! ### Invariants -/

/-- The finder region of a grid equals the overlay pattern (R19). -/
abbrev FinderIntact (g : Grid) : Prop :=
  ∀ r, r < 20 → ∀ c, c < 20 → (r < 4 ∨ c < 4) → gridCell g r c = finder r c

/-- `STAT.CORR` counts at most sixteen chunks (R121). -/
abbrev CorrBounded (s : State) : Prop := s.stat.corr.toNat ≤ 16

/-- The data bits of the codewords are the message bits, each once (R21). -/
abbrev Partition (s : State) : Prop :=
  ∀ i, i < 16 → ∀ j, j < 11 → (readAt s.cw i).getLsbD (Config.dataIdx.getD j 0) = s.msg.getLsbD (11 * i + j)

/-! ### Codewords and errors -/

/-- A codeword with one bit flipped. -/
def flipBit (r : Codeword) (k : Nat) : Codeword := r ^^^ BitVec.twoPow 16 k

/-- No codeword of a set is a double error. -/
abbrev NoDoubleError (cws : Codewords) : Prop := ∀ ch, ch < 16 → (hdec (readAt cws ch)).doubleError = false

/-- Chunk `ch` is the lowest-numbered double error (R172). -/
abbrev FirstDoubleError (cws : Codewords) (ch : Nat) : Prop :=
  ch < 16 ∧ (hdec (readAt cws ch)).doubleError = true
    ∧ ∀ k, k < ch → (hdec (readAt cws k)).doubleError = false

/-- How many of the chunks `0..n-1` need a correction (R121). -/
def correctedBefore (cws : Codewords) (n : Nat) : Nat :=
  ((List.range n).filter fun ch => (hdec (readAt cws ch)).corrected).length

/-- Two grids agree on the data region. -/
abbrev SameDataRegion (g h : Grid) : Prop :=
  ∀ r, 4 ≤ r → r < 20 → ∀ c, 4 ≤ c → c < 20 → gridCell h r c = gridCell g r c

/-- In the chunks that `chunks` names, `h` is `g` with at most one bit of each flipped: bit `b` of chunk `ch` when `hit ch = some b`. -/
def HitOncePerChunk (g h : Grid) (hit : Nat → Option Nat) (chunks : Nat → Prop) : Prop :=
  ∀ ch, ch < 16 → chunks ch → (∀ b, hit ch = some b → b < 16) ∧
    ∀ b, b < 16 → gridCell h (cellOf b ch).1 (cellOf b ch).2
      = (gridCell g (cellOf b ch).1 (cellOf b ch).2 ^^ decide (hit ch = some b))

/-- In chunk `ch`, `h` is `g` with exactly the bits `j` and `k` flipped. -/
def HitTwice (g h : Grid) (ch j k : Nat) : Prop :=
  ∀ b, b < 16 → gridCell h (cellOf b ch).1 (cellOf b ch).2
    = (gridCell g (cellOf b ch).1 (cellOf b ch).2 ^^ (decide (b = j) || decide (b = k)))

end Sys2Proof.Machine
end

