-- ==== Sys2Proof/Certificates/Slice0/Obligations.lean ====
section
/-!
DEFINITION. The statements for the provers. Each docstring names the rule of spec/ it formalises.
-/

open Sys2Proof Sys2Proof.Machine

/-! ### Words -/

/-- R49, last sentence: decode after encode is the identity on legal commands. -/
def Obligations.DecodeOfEncode : Prop :=
  ∀ i : Instr, i.wf = true → decode (encode i) = .ok i

/-- R49, last sentence: encode after decode is the identity on legal words; and what is decoded is well formed. -/
def Obligations.EncodeOfDecode : Prop :=
  ∀ (w : Word) (i : Instr), decode w = .ok i → encode i = w ∧ i.wf = true

/-- R42: a word is the command of a row exactly when it matches under the row's mask and the value checks hold, and no
two rows match the same word. -/
def Obligations.DecodeFollowsMatchAndMask : Prop :=
  (∀ (w : Word) (i : Instr), decode w = .ok i →
    ∃ row ∈ opcodeTable, row.mnemonic = i.mnemonic ∧ rowAccepts row w = true)
  ∧ (∀ (w : Word), ∀ row ∈ opcodeTable, rowAccepts row w = true →
    ∃ i, decode w = .ok i ∧ i.mnemonic = row.mnemonic)
  ∧ (∀ (w : Word), ∀ a ∈ opcodeTable, ∀ b ∈ opcodeTable,
    w &&& a.mask = a.matchBits → w &&& b.mask = b.matchBits → a = b)

/-- R45: the four cases of an illegal word in their order, and what an illegal command does. -/
def Obligations.IllegalWordsAnswerIllegalCommand : Prop :=
  (∀ w : Word, decode w = .error .reservedBit ↔ zField w = true)
  ∧ (∀ w : Word, decode w = .error .reservedOpcode ↔
      zField w = false ∧ ∀ row ∈ opcodeTable, opField row.matchBits ≠ opField w)
  ∧ (∀ w : Word, decode w = .error .maskedBit ↔
      zField w = false ∧ ∃ row ∈ opcodeTable, opField row.matchBits = opField w ∧ w &&& row.mask ≠ row.matchBits)
  ∧ (∀ w : Word, decode w = .error .valueCheck ↔
      zField w = false ∧ ∃ row ∈ opcodeTable, w &&& row.mask = row.matchBits ∧
        ¬((idxField w).toNat ≤ row.idxMax ∧ (immField w).toNat ≤ row.immMax))
  ∧ (∀ (s : State) (w : Word) (d : Draw) (rest : List Event), s.pending = .command w d :: rest →
      (∀ i, decode w ≠ .ok i) → step s = illegalAnswer { s with pending := rest, draw := d })

/-- R47: the example words of the assembler table, one of each family. -/
def Obligations.SampleWordsDecode : Prop :=
  decode 0x04000000 = .ok .rst
  ∧ decode 0x20200069 = .ok (.wrpay 1 0x69)
  ∧ decode 0x36A00000 = .ok (.rdmsg 21)
  ∧ decode 0x38A00204 = .ok (.wrcw 5 0x0204)
  ∧ decode 0x40800115 = .ok (.wrrow 4 0x00115)
  ∧ decode 0x60000000 = .ok .build
  ∧ decode 0x88000612 = .ok (.henci 0x612)
  ∧ decode 0xA0A00000 = .ok (.hdec 5)
  ∧ decode 0xC4000000 = .ok .extr
  ∧ decode 0xD5A00009 = .ok (.tog 13 9)
  ∧ decode 0xE0000000 = .ok .encode

/-! ### Steps -/

/-- A step with a legal command waiting is that command, on the state from which the command and its draw are taken (R5,
R84). -/
def Obligations.StepRunsDecodedCommand : Prop :=
  ∀ (s : State) (w : Word) (d : Draw) (rest : List Event) (i : Instr),
    s.pending = .command w d :: rest → decode w = .ok i → step s = exec i { s with pending := rest, draw := d }

/-- R178: with no command the state does not change. R190: a hardware reset leaves the registers as `RST` and
State.reset do. That a reset is an event of the input list and answers nothing is the model's choice (log 4). -/
def Obligations.StepWithoutCommand : Prop :=
  (∀ s : State, s.pending = [] → step s = .next s)
  ∧ (∀ (s : State) (rest : List Event), s.pending = .reset :: rest →
      ∃ t u, step s = .next t ∧ exec .rst s = .next u ∧ SameRegisters u t ∧ SameRegisters State.reset t
        ∧ t.pending = rest ∧ t.responses = s.responses)

/-- R43: every command, legal or not, produces exactly one response, with its fields where R43 puts them. -/
def Obligations.EveryCommandAnswersOnce : Prop :=
  ∀ (s : State) (w : Word) (d : Draw) (rest : List Event), s.pending = .command w d :: rest →
    ∃ t r, step s = .next t ∧ t.responses = r :: s.responses ∧ t.pending = rest
      ∧ r.word.extractLsb' 30 2 = codeBits r.code ∧ r.word.extractLsb' 20 10 = 0 ∧ r.word.extractLsb' 0 20 = r.value

/-- R177: the block never halts: every step of every state, and every command in every state, answers a next state. -/
def Obligations.NothingEverStops : Prop :=
  (∀ s : State, ∃ t, step s = .next t) ∧ (∀ (i : Instr) (s : State), ∃ t, exec i s = .next t)

/-- R19: every step but one that runs `WRROW` keeps the finder invariant. -/
def Obligations.FinderKeptByEveryOtherStep : Prop :=
  ∀ s t : State, FinderIntact s.grid →
    (∀ w d rest row v, s.pending = .command w d :: rest → decode w ≠ .ok (.wrrow row v)) →
    step s = .next t → FinderIntact t.grid

/-- R19: the finder invariant is restored by `OVL`, `PLACE`, `ENCODE`, `RST`, or `TOG` of a data cell, whatever the grid
held. -/
def Obligations.FinderRestored : Prop :=
  ∀ s : State,
    (∃ t, exec .ovl s = .next t ∧ FinderIntact t.grid)
    ∧ (∃ t, exec .place s = .next t ∧ FinderIntact t.grid)
    ∧ (∃ t, exec .rst s = .next t ∧ FinderIntact t.grid)
    ∧ (s.plen.toNat ≤ 21 → ∃ t, exec .encode s = .next t ∧ FinderIntact t.grid)
    ∧ (∀ r c : BitVec 5, 4 ≤ r.toNat → r.toNat < 20 → 4 ≤ c.toNat → c.toNat < 20 →
        ∃ t, exec (.tog r c) s = .next t ∧ FinderIntact t.grid)

/-- R121: no step makes `STAT.CORR` exceed 16. -/
def Obligations.CorrStaysAtMostSixteen : Prop :=
  ∀ s t : State, CorrBounded s → step s = .next t → CorrBounded t

/-- The invariants hold at reset, and reset is the register state after `ENCODE` of the empty payload with a zero draw:
an inference the spec makes in the last paragraph of 10_state.md section 5. -/
def Obligations.ResetMeetsInvariants : Prop :=
  FinderIntact State.reset.grid ∧ CorrBounded State.reset ∧ Partition State.reset
  ∧ ∃ t, exec .encode { State.reset with draw := 0 } = .next t ∧ SameRegisters State.reset t

/-- R22: the registers after reset. -/
def Obligations.ResetValues : Prop :=
  State.reset.grid.toList = [0xFFFFF, 0x80009, 0xFFFFD, 0x00007] ++ List.replicate 15 0x00005 ++ [0x00007]
  ∧ (∀ i, i < 22 → readAt State.reset.pay i = 0)
  ∧ State.reset.plen = 0
  ∧ State.reset.msg = 0
  ∧ (∀ ch, ch < 16 → readAt State.reset.cw ch = 0)
  ∧ State.reset.stat = ⟨false, false, false, false, 0, 0, 0⟩

/-- R23: which commands write which `STAT` fields. -/
def Obligations.StatFieldsHaveOnlyTheirWriters : Prop :=
  ∀ (i : Instr) (s t : State), exec i s = .next t →
    (t.stat.ptl ≠ s.stat.ptl → i = .build ∨ i = .encode ∨ i = .rst)
    ∧ (¬SameVerdictFields t.stat s.stat → (∃ ch, i = .hdec ch) ∨ i = .hdeca ∨ i = .decode ∨ i = .rst)
    ∧ (t.stat.corr ≠ s.stat.corr → i = .hdeca ∨ i = .decode ∨ i = .rst)
    ∧ (i.wf = false → t.stat = s.stat)

/-- 10_state.md section 4: which commands write which registers. -/
def Obligations.RegistersHaveOnlyTheirWriters : Prop :=
  ∀ (i : Instr) (s t : State), exec i s = .next t →
    (t.pay ≠ s.pay → (∃ p v, i = .wrpay p v) ∨ i = .rst ∨ i = .unpk ∨ i = .decode)
    ∧ (t.plen ≠ s.plen → (∃ n, i = .wrlen n) ∨ i = .rst ∨ i = .unpk ∨ i = .decode)
    ∧ (t.msg ≠ s.msg → (∃ p v, i = .wrmsg p v) ∨ i = .rst ∨ i = .build ∨ (∃ ch, i = .hdec ch) ∨ i = .hdeca
        ∨ i = .encode ∨ i = .decode)
    ∧ (t.cw ≠ s.cw → (∃ ch v, i = .wrcw ch v) ∨ i = .rst ∨ (∃ ch, i = .henc ch) ∨ i = .henca ∨ i = .extr
        ∨ i = .encode ∨ i = .decode)
    ∧ (t.grid ≠ s.grid → (∃ r v, i = .wrrow r v) ∨ i = .rst ∨ i = .place ∨ i = .ovl ∨ (∃ r c, i = .tog r c)
        ∨ i = .encode)
    ∧ t.pending = s.pending ∧ t.draw = s.draw

/-- R38: no read has a side effect, nor have `HENCI` and `HDECI`, a second read gives the same response, and writing the
value an element already holds changes no register. -/
def Obligations.ReadsHaveNoSideEffect : Prop :=
  ∀ s : State,
    (∀ i : Instr, ((∃ p, i = .rdpay p) ∨ i = .rdlen ∨ (∃ p, i = .rdmsg p) ∨ (∃ ch, i = .rdcw ch) ∨ (∃ r, i = .rdrow r)
        ∨ i = .rdstat ∨ (∃ v, i = .henci v) ∨ (∃ v, i = .hdeci v)) →
      ∃ t u r, exec i s = .next t ∧ t = { s with responses := r :: s.responses }
        ∧ exec i t = .next u ∧ u = { t with responses := r :: t.responses })
    ∧ (∀ p : BitVec 5, p.toNat ≤ 21 →
        exec (.wrpay p (readAt s.pay p.toNat)) s = .next (answered s .ok 0)
        ∧ exec (.wrmsg p (msgByte s.msg p.toNat)) s = .next (answered s .ok 0))
    ∧ exec (.wrlen s.plen) s = .next (answered s .ok 0)
    ∧ (∀ ch : BitVec 4, exec (.wrcw ch (readAt s.cw ch.toNat)) s = .next (answered s .ok 0))
    ∧ (∀ r : BitVec 5, r.toNat ≤ 19 → exec (.wrrow r (readAt s.grid r.toNat)) s = .next (answered s .ok 0))

/-! ### Control and register access -/

/-- R60: `NOP` answers `(OK, 0)` and writes nothing; its one legal word is 0. -/
def Obligations.NopOnlyAnswers : Prop :=
  (∀ s : State, exec .nop s = .next (answered s .ok 0)) ∧ LegalExactly 0x00 noOperands

/-- R61: `RST` puts every register at its reset value and answers `(OK, 0)`. -/
def Obligations.RstResetsEveryRegister : Prop :=
  (∀ s : State, ∃ t, exec .rst s = .next t ∧ SameRegisters State.reset t
    ∧ t.responses = ⟨.ok, 0⟩ :: s.responses ∧ t.pending = s.pending ∧ t.draw = s.draw)
  ∧ LegalExactly 0x01 noOperands

/-- R62, R63: `WRPAY` writes one payload byte, `RDPAY` reads one; a position above 21 is an illegal command. -/
def Obligations.PayloadBytesMove : Prop :=
  (∀ (p : BitVec 5) (v : Byte) (s : State), p.toNat ≤ 21 →
    ∃ t, exec (.wrpay p v) s = .next t
      ∧ t = { s with pay := t.pay, responses := ⟨.ok, 0⟩ :: s.responses }
      ∧ ∀ k, k < 22 → readAt t.pay k = if k = p.toNat then v else readAt s.pay k)
  ∧ (∀ (p : BitVec 5) (s : State), p.toNat ≤ 21 →
      exec (.rdpay p) s = .next (answered s .ok (BitVec.ofNat 20 (readAt s.pay p.toNat).toNat)))
  ∧ (∀ (p : BitVec 5) (v : Byte) (s : State), 21 < p.toNat →
      exec (.wrpay p v) s = illegalAnswer s ∧ exec (.rdpay p) s = illegalAnswer s)
  ∧ LegalExactly 0x08 (fun idx imm => idx.toNat ≤ 21 ∧ imm.toNat < 2 ^ 8)
  ∧ LegalExactly 0x09 (fun idx imm => idx.toNat ≤ 21 ∧ imm = 0)

/-- R64, R65: `WRLEN` writes any 5-bit length, `RDLEN` reads it. -/
def Obligations.PayloadLengthMoves : Prop :=
  (∀ (n : BitVec 5) (s : State), exec (.wrlen n) s = .next (answered { s with plen := n } .ok 0))
  ∧ (∀ s : State, exec .rdlen s = .next (answered s .ok (BitVec.ofNat 20 s.plen.toNat)))
  ∧ LegalExactly 0x0A (fun idx imm => idx = 0 ∧ imm.toNat < 2 ^ 5)
  ∧ LegalExactly 0x0B noOperands

/-- R66, R67: `WRMSG` writes eight message bits, most significant first, and no others; `RDMSG` reads them as a number,
which is that element of `unpack(MSG)`. -/
def Obligations.MessageBytesMove : Prop :=
  (∀ (p : BitVec 5) (v : Byte) (s : State), p.toNat ≤ 21 →
    ∃ t, exec (.wrmsg p v) s = .next t
      ∧ t = { s with msg := t.msg, responses := ⟨.ok, 0⟩ :: s.responses }
      ∧ (∀ j, j < 8 → (t.msg.getLsbD (8 * p.toNat + j)).toNat = v.toNat / 2 ^ (7 - j) % 2)
      ∧ ∀ k, k / 8 ≠ p.toNat → t.msg.getLsbD k = s.msg.getLsbD k)
  ∧ (∀ (p : BitVec 5) (s : State), p.toNat ≤ 21 →
    ∃ x : Value, exec (.rdmsg p) s = .next (answered s .ok x)
      ∧ x.toNat = ((List.range 8).map fun j => (s.msg.getLsbD (8 * p.toNat + j)).toNat * 2 ^ (7 - j)).sum
      ∧ x.toNat = ((unpack (bitsOf s.msg)).getD p.toNat 0).toNat)
  ∧ (∀ (p : BitVec 5) (v : Byte) (s : State), 21 < p.toNat →
      exec (.wrmsg p v) s = illegalAnswer s ∧ exec (.rdmsg p) s = illegalAnswer s)
  ∧ LegalExactly 0x0C (fun idx imm => idx.toNat ≤ 21 ∧ imm.toNat < 2 ^ 8)
  ∧ LegalExactly 0x0D (fun idx imm => idx.toNat ≤ 21 ∧ imm = 0)

/-- R68, R69: `WRCW` writes one codeword, valid or not, bit `b` of the operand to index `b`; `RDCW` reads one. -/
def Obligations.CodewordsMove : Prop :=
  (∀ (ch : BitVec 4) (v : Codeword) (s : State),
    ∃ t, exec (.wrcw ch v) s = .next t
      ∧ t = { s with cw := t.cw, responses := ⟨.ok, 0⟩ :: s.responses }
      ∧ (∀ b, b < 16 → ((readAt t.cw ch.toNat).getLsbD b).toNat = v.toNat / 2 ^ b % 2)
      ∧ ∀ k, k < 16 → k ≠ ch.toNat → readAt t.cw k = readAt s.cw k)
  ∧ (∀ (ch : BitVec 4) (s : State),
    ∃ x : Value, exec (.rdcw ch) s = .next (answered s .ok x)
      ∧ x.toNat = ((List.range 16).map fun b => ((readAt s.cw ch.toNat).getLsbD b).toNat * 2 ^ b).sum)
  ∧ LegalExactly 0x0E (fun idx imm => idx.toNat < 16 ∧ imm.toNat < 2 ^ 16)
  ∧ LegalExactly 0x0F (fun idx imm => idx.toNat < 16 ∧ imm = 0)

/-- R70, R71: `WRROW` writes the 20 cells of a row as given, finder cells included, and applies no overlay; `RDROW`
reads a row, column `c` at bit `c`. -/
def Obligations.GridRowsMove : Prop :=
  (∀ (r : BitVec 5) (v : GridRow) (s : State), r.toNat ≤ 19 →
    ∃ t, exec (.wrrow r v) s = .next t
      ∧ t = { s with grid := t.grid, responses := ⟨.ok, 0⟩ :: s.responses }
      ∧ (∀ c, c < 20 → (gridCell t.grid r.toNat c).toNat = v.toNat / 2 ^ c % 2)
      ∧ ∀ k, k < 20 → k ≠ r.toNat → ∀ c, c < 20 → gridCell t.grid k c = gridCell s.grid k c)
  ∧ (∀ (r : BitVec 5) (s : State), r.toNat ≤ 19 →
    ∃ x : Value, exec (.rdrow r) s = .next (answered s .ok x)
      ∧ x.toNat = ((List.range 20).map fun c => (gridCell s.grid r.toNat c).toNat * 2 ^ c).sum)
  ∧ (∀ (r : BitVec 5) (v : GridRow) (s : State), 19 < r.toNat →
      exec (.wrrow r v) s = illegalAnswer s ∧ exec (.rdrow r) s = illegalAnswer s)
  ∧ LegalExactly 0x10 (fun idx _ => idx.toNat ≤ 19)
  ∧ LegalExactly 0x11 (fun idx imm => idx.toNat ≤ 19 ∧ imm = 0)

/-- R72: `RDSTAT` reads the fields at the places of R16, bits 19..17 are 0, and nothing is cleared. -/
def Obligations.RdstatReadsEveryField : Prop :=
  (∀ s : State, ∃ x : Value, exec .rdstat s = .next (answered s .ok x)
    ∧ x.toNat = s.stat.ptl.toNat + 2 * s.stat.dbe.toNat + 4 * s.stat.cor.toNat + 8 * s.stat.ovr.toNat
        + 16 * s.stat.syn.toNat + 256 * s.stat.ech.toNat + 4096 * s.stat.corr.toNat
    ∧ x.getLsbD 0 = s.stat.ptl ∧ x.getLsbD 1 = s.stat.dbe ∧ x.getLsbD 2 = s.stat.cor ∧ x.getLsbD 3 = s.stat.ovr
    ∧ x.extractLsb' 4 4 = s.stat.syn ∧ x.extractLsb' 8 4 = s.stat.ech ∧ x.extractLsb' 12 5 = s.stat.corr
    ∧ x.extractLsb' 17 3 = 0)
  ∧ LegalExactly 0x12 noOperands

/-! ### Bitpacker -/

/-- R80, R81, R82: `pack` and `unpack` bit by bit, with the zero padding, and that they are inverses on whole bytes. -/
def Obligations.PackAndUnpack : Prop :=
  (∀ bytes : List Byte, (pack bytes).length = 8 * bytes.length
    ∧ ∀ k, k < bytes.length → ∀ j, j < 8 →
      ((pack bytes).getD (8 * k + j) false).toNat = (bytes.getD k 0).toNat / 2 ^ (7 - j) % 2)
  ∧ (∀ bits : List Bool, (unpack bits).length = (bits.length + 7) / 8
    ∧ ∀ k, k < (bits.length + 7) / 8 → ((unpack bits).getD k 0).toNat
      = ((List.range 8).map fun j => (bits.getD (8 * k + j) false).toNat * 2 ^ (7 - j)).sum)
  ∧ (∀ bytes : List Byte, unpack (pack bytes) = bytes)
  ∧ (∀ bits : List Bool, bits.length % 8 = 0 → pack (unpack bits) = bits)

/-- R85, R86: `split` and `join` bit by bit, and that they are inverses. -/
def Obligations.SplitAndJoin : Prop :=
  (∀ m : Message, ∀ i, i < 16 → ∀ j, j < 11 → (readAt (split m) i).getLsbD j = m.getLsbD (11 * i + j))
  ∧ (∀ d : Vector Chunk 16, ∀ i, i < 16 → ∀ j, j < 11 → (join d).getLsbD (11 * i + j) = (readAt d i).getLsbD j)
  ∧ (∀ m : Message, join (split m) = m)
  ∧ (∀ d : Vector Chunk 16, split (join d) = d)

/-- Inferences of the spec: R91 (the filler is whole bytes; the message of a payload holds its bytes and the terminator;
the terminator scan) and the last sentence of R82 (what `pack` after `unpack` adds). -/
def Obligations.BitpackerFacts : Prop :=
  (∀ (payload : Payload) (n : Nat) (rnd : Draw) (m : Message), n ≤ 21 → buildMessage payload n rnd = some m →
    (fillerCount n % 8 = 0 ∧ 8 * n + 8 + fillerCount n = 176)
    ∧ (∀ k, k < n → (unpack (bitsOf m)).getD k 0 = readAt payload k)
    ∧ (unpack (bitsOf m)).getD n 1 = 0
    ∧ ((∀ k, k < n → readAt payload k ≠ 0) → termScan (unpack (bitsOf m)) = n)
    ∧ (∀ z, z < n → readAt payload z = 0 → (∀ k, k < z → readAt payload k ≠ 0) → termScan (unpack (bitsOf m)) = z)
    ∧ termScan (unpack (bitsOf m)) ≤ 21)
  ∧ (∀ bits : List Bool, ∃ n, n < 8 ∧ pack (unpack bits) = bits ++ List.replicate n false)

/-- R89 with R83 and R84: `BUILD` of a payload of at most 21 bytes writes payload, terminator and the first `168 -
8·PLEN` drawn bits in order, clears `PTL` and answers the number of bits drawn; a longer length is PayloadTooLarge. -/
def Obligations.BuildAssemblesTheMessage : Prop :=
  (∀ s : State, s.plen.toNat ≤ 21 →
    ∃ t, exec .build s = .next t
      ∧ t = { s with msg := t.msg, stat := { s.stat with ptl := false },
                     responses := ⟨.ok, BitVec.ofNat 20 (168 - 8 * s.plen.toNat)⟩ :: s.responses }
      ∧ ∀ k, k < 176 → t.msg.getLsbD k =
          if k < 8 * s.plen.toNat then (readAt s.pay (k / 8)).getLsbD (7 - k % 8)
          else if k < 8 * s.plen.toNat + 8 then false
          else s.draw.getLsbD (k - (8 * s.plen.toNat + 8)))
  ∧ (∀ s : State, 21 < s.plen.toNat → exec .build s = tooLargeAnswer s)
  ∧ LegalExactly 0x18 noOperands

/-- R171, R152: `BUILD` and `ENCODE` with `PLEN` in 22..31 write `STAT.PTL` and nothing else, whatever the draw and the
payload; with `PLEN` up to 21 they succeed and clear it. -/
def Obligations.LongPayloadsAreRejected : Prop :=
  (∀ (s : State) (d : Draw), 21 < s.plen.toNat →
    exec .build { s with draw := d } = tooLargeAnswer { s with draw := d }
    ∧ exec .encode { s with draw := d } = tooLargeAnswer { s with draw := d })
  ∧ (∀ s : State, s.plen.toNat ≤ 21 →
    (∃ t, exec .build s = .next t ∧ t.stat.ptl = false
      ∧ t.responses = ⟨.ok, BitVec.ofNat 20 (168 - 8 * s.plen.toNat)⟩ :: s.responses)
    ∧ ∃ t, exec .encode s = .next t ∧ t.stat.ptl = false
      ∧ t.responses = ⟨.ok, BitVec.ofNat 20 (168 - 8 * s.plen.toNat)⟩ :: s.responses)

/-- R90 with R87: `UNPK` writes all 22 payload bytes and, as the length, the place of the first zero byte, or 22. -/
def Obligations.UnpkDisassemblesTheMessage : Prop :=
  (∀ s : State, ∃ t, exec .unpk s = .next t
    ∧ t = { s with pay := t.pay, plen := t.plen, responses := ⟨.ok, BitVec.ofNat 20 t.plen.toNat⟩ :: s.responses }
    ∧ (∀ k, k < 22 → ∀ j, j < 8 → (readAt t.pay k).getLsbD (7 - j) = s.msg.getLsbD (8 * k + j))
    ∧ t.plen.toNat ≤ 22
    ∧ (∀ k, k < t.plen.toNat → readAt t.pay k ≠ 0)
    ∧ (t.plen.toNat < 22 → readAt t.pay t.plen.toNat = 0))
  ∧ LegalExactly 0x19 noOperands

/-! ### Encoder -/

/-- R100: every bit of a codeword is what its step makes it: a data bit, the parity of the other bits its position
covers, or the parity of bits 1 to 15. -/
def Obligations.EncoderFollowsItsSteps : Prop :=
  ∀ d : Chunk,
    (∀ j, j < 11 → (henc d).getLsbD (Config.dataIdx.getD j 0) = d.getLsbD j)
    ∧ (∀ p ∈ [1, 2, 4, 8], (henc d).getLsbD p =
        xorAll (((List.range 16).filter fun i => decide (1 ≤ i ∧ i &&& p ≠ 0 ∧ i ≠ p)).map (henc d).getLsbD))
    ∧ (henc d).getLsbD 0 = xorAll ((List.range 15).map fun i => (henc d).getLsbD (i + 1))

/-- R101, an inference of the spec from R100: the covered sets, the codeword bit by bit, and the eleven unit rows. -/
def Obligations.EncoderBitByBit : Prop :=
  covered 1 = [1, 3, 5, 7, 9, 11, 13, 15] ∧ covered 2 = [2, 3, 6, 7, 10, 11, 14, 15]
  ∧ covered 4 = [4, 5, 6, 7, 12, 13, 14, 15] ∧ covered 8 = [8, 9, 10, 11, 12, 13, 14, 15]
  ∧ (∀ d : Chunk,
      let x := fun j => d.getLsbD j
      let cw := fun i => (henc d).getLsbD i
      cw 1 = (x 0 ^^ x 1 ^^ x 3 ^^ x 4 ^^ x 6 ^^ x 8 ^^ x 10)
      ∧ cw 2 = (x 0 ^^ x 2 ^^ x 3 ^^ x 5 ^^ x 6 ^^ x 9 ^^ x 10)
      ∧ cw 4 = (x 1 ^^ x 2 ^^ x 3 ^^ x 7 ^^ x 8 ^^ x 9 ^^ x 10)
      ∧ cw 8 = (x 4 ^^ x 5 ^^ x 6 ^^ x 7 ^^ x 8 ^^ x 9 ^^ x 10)
      ∧ cw 0 = (x 0 ^^ x 1 ^^ x 2 ^^ x 4 ^^ x 5 ^^ x 7 ^^ x 10)
      ∧ cw 3 = x 0 ∧ cw 5 = x 1 ∧ cw 6 = x 2 ∧ cw 7 = x 3 ∧ cw 9 = x 4 ∧ cw 10 = x 5
      ∧ cw 11 = x 6 ∧ cw 12 = x 7 ∧ cw 13 = x 8 ∧ cw 14 = x 9 ∧ cw 15 = x 10)
  ∧ [0x001, 0x002, 0x004, 0x008, 0x010, 0x020, 0x040, 0x080, 0x100, 0x200, 0x400].map henc
      = [0x000F, 0x0033, 0x0055, 0x0096, 0x0303, 0x0505, 0x0906, 0x1111, 0x2112, 0x4114, 0x8117]

/-- R102, in part an inference of the spec from R100: even overall parity, even Hamming checks, linearity, injectivity
with the data readable, a clean verdict on every codeword, and weight at least 4 of every nonzero one. -/
def Obligations.EncoderProperties : Prop :=
  (∀ d : Chunk, overall (henc d) = false
    ∧ (henc d).getLsbD 0 = xorAll ((List.range 15).map fun i => (henc d).getLsbD (i + 1)))
  ∧ (∀ d : Chunk, ∀ p ∈ [1, 2, 4, 8], parityAt (henc d) (covered p) = false)
  ∧ (∀ d e : Chunk, henc (d ^^^ e) = henc d ^^^ henc e)
  ∧ henc 0 = 0
  ∧ (∀ d e : Chunk, henc d = henc e → d = e)
  ∧ (∀ d : Chunk, ∀ j, j < 11 → (henc d).getLsbD (Config.dataIdx.getD j 0) = d.getLsbD j)
  ∧ (∀ d : Chunk, (hdec (henc d)).corrected = false ∧ (hdec (henc d)).doubleError = false ∧ (hdec (henc d)).data = d)
  ∧ (∀ d : Chunk, d ≠ 0 → 4 ≤ (bitsOf (henc d)).count true)

/-- R103: `HENC` encodes one chunk of `MSG` into one codeword register and answers the codeword. -/
def Obligations.HencEncodesOneChunk : Prop :=
  (∀ (ch : BitVec 4) (s : State), ∃ t, exec (.henc ch) s = .next t
    ∧ t = { s with cw := t.cw,
                   responses := ⟨.ok, BitVec.ofNat 20 (henc (messageChunk s.msg ch.toNat)).toNat⟩ :: s.responses }
    ∧ ∀ k, k < 16 → readAt t.cw k = if k = ch.toNat then henc (messageChunk s.msg ch.toNat) else readAt s.cw k)
  ∧ LegalExactly 0x20 (fun idx imm => idx.toNat < 16 ∧ imm = 0)

/-- R104 with R21: `HENCA` encodes all sixteen chunks, and then the data bits of the codewords are the message bits,
each once. -/
def Obligations.HencaEncodesEveryChunk : Prop :=
  (∀ s : State, ∃ t, exec .henca s = .next t
    ∧ t = { s with cw := t.cw, responses := ⟨.ok, 0⟩ :: s.responses }
    ∧ (∀ ch, ch < 16 → readAt t.cw ch = henc (messageChunk s.msg ch))
    ∧ Partition t)
  ∧ LegalExactly 0x21 noOperands

/-- R105: `HENCI` answers the codeword of its operand and writes nothing. -/
def Obligations.HenciOnlyAnswers : Prop :=
  (∀ (v : Chunk) (s : State), exec (.henci v) s = .next (answered s .ok (BitVec.ofNat 20 (henc v).toNat)))
  ∧ LegalExactly 0x22 (fun idx imm => idx = 0 ∧ imm.toNat < 2 ^ 11)

/-! ### Decoder -/

/-- R110, R111, R112, R113: the four checks, the syndrome, the overall parity, the table with its corrections, and the
data. -/
def Obligations.DecoderTable : Prop :=
  ∀ r : Codeword,
    let x := fun i => r.getLsbD i
    (syndrome r).getLsbD 0 = (x 1 ^^ x 3 ^^ x 5 ^^ x 7 ^^ x 9 ^^ x 11 ^^ x 13 ^^ x 15)
    ∧ (syndrome r).getLsbD 1 = (x 2 ^^ x 3 ^^ x 6 ^^ x 7 ^^ x 10 ^^ x 11 ^^ x 14 ^^ x 15)
    ∧ (syndrome r).getLsbD 2 = (x 4 ^^ x 5 ^^ x 6 ^^ x 7 ^^ x 12 ^^ x 13 ^^ x 14 ^^ x 15)
    ∧ (syndrome r).getLsbD 3 = (x 8 ^^ x 9 ^^ x 10 ^^ x 11 ^^ x 12 ^^ x 13 ^^ x 14 ^^ x 15)
    ∧ overall r = xorAll ((List.range 16).map x)
    ∧ (hdec r).overall = overall r ∧ (hdec r).syndrome = syndrome r
    ∧ (overall r = false → syndrome r = 0 →
        (hdec r).fixed = r ∧ (hdec r).corrected = false ∧ (hdec r).doubleError = false)
    ∧ (overall r = true → syndrome r = 0 →
        (hdec r).fixed = flipBit r 0 ∧ (hdec r).corrected = true ∧ (hdec r).doubleError = false)
    ∧ (overall r = true → syndrome r ≠ 0 →
        (hdec r).fixed = flipBit r (syndrome r).toNat ∧ (hdec r).corrected = true ∧ (hdec r).doubleError = false)
    ∧ (overall r = false → syndrome r ≠ 0 →
        (hdec r).fixed = r ∧ (hdec r).corrected = false ∧ (hdec r).doubleError = true)
    ∧ (∀ j, j < 11 → (hdec r).data.getLsbD j = (hdec r).fixed.getLsbD (Config.dataIdx.getD j 0))
    ∧ (hdec r).ok = !(hdec r).doubleError

/-- The last sentence of R110, an inference of the spec: the syndrome is the exclusive-or of the indices of the set
bits. -/
def Obligations.SyndromeIsTheXorOfIndices : Prop :=
  ∀ r : Codeword, syndrome r =
    (List.range 16).foldl (fun acc i => if r.getLsbD i then acc ^^^ BitVec.ofNat 4 i else acc) 0

/-- R115, an inference of the spec: any one flipped bit of a codeword is corrected. -/
def Obligations.SingleErrorsAreCorrected : Prop :=
  ∀ (d : Chunk) (k : Nat), k < 16 →
    (hdec (flipBit (henc d) k)).overall = true
    ∧ (hdec (flipBit (henc d) k)).syndrome = BitVec.ofNat 4 k
    ∧ (hdec (flipBit (henc d) k)).corrected = true
    ∧ (hdec (flipBit (henc d) k)).doubleError = false
    ∧ (hdec (flipBit (henc d) k)).fixed = henc d
    ∧ (hdec (flipBit (henc d) k)).data = d

/-- R116, an inference of the spec: any two distinct flipped bits of a codeword are a double error. -/
def Obligations.DoubleErrorsAreDetected : Prop :=
  ∀ (d : Chunk) (j k : Nat), j < 16 → k < 16 → j ≠ k →
    (hdec (flipBit (flipBit (henc d) j) k)).overall = false
    ∧ (hdec (flipBit (flipBit (henc d) j) k)).syndrome ≠ 0
    ∧ (hdec (flipBit (flipBit (henc d) j) k)).doubleError = true
    ∧ (hdec (flipBit (flipBit (henc d) j) k)).corrected = false

/-- The last inference of R117: every word is at distance at most 1 from a codeword or is a double error; the corrected
word is the codeword of the data. -/
def Obligations.AcceptedWordsAreNearCodewords : Prop :=
  ∀ r : Codeword, (hdec r).doubleError = false →
    (hdec r).fixed = henc (hdec r).data
    ∧ (r = henc (hdec r).data ∨ ∃ k, k < 16 ∧ r = flipBit (henc (hdec r).data) k)

/-- R122: `HDECI` answers the verdict word of its operand and writes nothing, `STAT` included. R119: the place of each
output in the verdict word, which `HDEC` answers too. -/
def Obligations.HdeciOnlyAnswers : Prop :=
  (∀ (v : Codeword) (s : State), exec (.hdeci v) s = .next (answered s .ok (verdictWord (hdec v))))
  ∧ (∀ v : Verdict,
      (verdictWord v).extractLsb' 0 11 = v.data ∧ (verdictWord v).getLsbD 11 = v.corrected
      ∧ (verdictWord v).getLsbD 12 = v.doubleError ∧ (verdictWord v).getLsbD 13 = v.overall
      ∧ (verdictWord v).extractLsb' 14 4 = v.syndrome ∧ (verdictWord v).getLsbD 18 = v.ok
      ∧ (verdictWord v).getLsbD 19 = false
      ∧ (verdictWord v).toNat = v.data.toNat + 2 ^ 11 * v.corrected.toNat + 2 ^ 12 * v.doubleError.toNat
          + 2 ^ 13 * v.overall.toNat + 2 ^ 14 * v.syndrome.toNat + 2 ^ 18 * v.ok.toNat)
  ∧ (∀ (ch : BitVec 4) (s : State), ∃ t, exec (.hdec ch) s = .next t
      ∧ t.responses = ⟨.ok, verdictWord (hdec (readAt s.cw ch.toNat))⟩ :: s.responses)
  ∧ LegalExactly 0x2A (fun idx imm => idx = 0 ∧ imm.toNat < 2 ^ 16)

/-- R120: `HDEC` records the verdict of one codeword, stores its data in `MSG` unless it is a double error, never writes
`CW`, and answers `OK` either way. -/
def Obligations.HdecDecodesOneChunk : Prop :=
  (∀ (ch : BitVec 4) (s : State), ∃ t, exec (.hdec ch) s = .next t
    ∧ t = { s with
        msg := t.msg,
        stat := { s.stat with
          dbe := (hdec (readAt s.cw ch.toNat)).doubleError, cor := (hdec (readAt s.cw ch.toNat)).corrected,
          ovr := (hdec (readAt s.cw ch.toNat)).overall, syn := (hdec (readAt s.cw ch.toNat)).syndrome, ech := ch },
        responses := ⟨.ok, verdictWord (hdec (readAt s.cw ch.toNat))⟩ :: s.responses }
    ∧ ((hdec (readAt s.cw ch.toNat)).doubleError = true → t.msg = s.msg)
    ∧ ((hdec (readAt s.cw ch.toNat)).doubleError = false → ∀ k, k < 176 → t.msg.getLsbD k =
        if k / 11 = ch.toNat then (hdec (readAt s.cw ch.toNat)).data.getLsbD (k % 11) else s.msg.getLsbD k))
  ∧ LegalExactly 0x28 (fun idx imm => idx.toNat < 16 ∧ imm = 0)

/-- R121: `HDECA` with no double error writes all 176 message bits, the verdict fields of chunk 15 and the count of
corrected chunks; otherwise it reports the lowest-numbered double error and leaves `MSG` as it was. -/
def Obligations.HdecaScansTheChunks : Prop :=
  (∀ s : State, NoDoubleError s.cw →
    ∃ t, exec .hdeca s = .next t
      ∧ t = { s with
          msg := t.msg,
          stat := { s.stat with
            dbe := false, cor := (hdec (readAt s.cw 15)).corrected, ovr := (hdec (readAt s.cw 15)).overall,
            syn := (hdec (readAt s.cw 15)).syndrome, ech := 15, corr := BitVec.ofNat 5 (correctedBefore s.cw 16) },
          responses := ⟨.ok, BitVec.ofNat 20 (correctedBefore s.cw 16)⟩ :: s.responses }
      ∧ (∀ k, k < 176 → t.msg.getLsbD k = (hdec (readAt s.cw (k / 11))).data.getLsbD (k % 11))
      ∧ t.stat.corr.toNat = correctedBefore s.cw 16)
  ∧ (∀ (s : State) (ch : Nat), FirstDoubleError s.cw ch →
    exec .hdeca s = .next (answered
      { s with stat := { s.stat with
          dbe := true, cor := false, ovr := false, syn := (hdec (readAt s.cw ch)).syndrome,
          ech := BitVec.ofNat 4 ch, corr := BitVec.ofNat 5 (correctedBefore s.cw ch) } }
      .doubleBitErrorRejected (BitVec.ofNat 20 ch)))
  ∧ LegalExactly 0x29 noOperands

/-! ### Mapper and grid -/

/-- R132 and R135, inferences of the spec: `cell_of` and `bit_of` are inverse, and so are `place` and `extract` on the
data region. -/
def Obligations.MapperIsBijective : Prop :=
  (∀ b ch, b < 16 → ch < 16 → bitOf (cellOf b ch).1 (cellOf b ch).2 = (b, ch)
    ∧ 4 ≤ (cellOf b ch).1 ∧ (cellOf b ch).1 ≤ 19 ∧ 4 ≤ (cellOf b ch).2 ∧ (cellOf b ch).2 ≤ 19)
  ∧ (∀ r c, 4 ≤ r → r ≤ 19 → 4 ≤ c → c ≤ 19 → cellOf (bitOf r c).1 (bitOf r c).2 = (r, c)
    ∧ (bitOf r c).1 < 16 ∧ (bitOf r c).2 < 16)
  ∧ (∀ (cws : Codewords) (g : Grid), extract (placeCells cws g) = cws)
  ∧ (∀ g h : Grid, SameDataRegion g (placeCells (extract g) h))

/-- R136 with R131: `PLACE` writes bit `b` of chunk `ch` to its cell and the overlay pattern to every finder cell. -/
def Obligations.PlaceWritesTheGrid : Prop :=
  (∀ s : State, ∃ t, exec .place s = .next t
    ∧ t = { s with grid := t.grid, responses := ⟨.ok, 0⟩ :: s.responses }
    ∧ (∀ b, b < 16 → ∀ ch, ch < 16 →
        gridCell t.grid (4 + 4 * (b / 4) + ch / 4) (4 + 4 * (b % 4) + ch % 4) = (readAt s.cw ch).getLsbD b)
    ∧ FinderIntact t.grid)
  ∧ LegalExactly 0x30 noOperands

/-- R137 with R131: `EXTR` reads bit `b` of chunk `ch` from its cell. -/
def Obligations.ExtrReadsTheGrid : Prop :=
  (∀ s : State, ∃ t, exec .extr s = .next t
    ∧ t = { s with cw := t.cw, responses := ⟨.ok, 0⟩ :: s.responses }
    ∧ ∀ b, b < 16 → ∀ ch, ch < 16 →
        (readAt t.cw ch).getLsbD b = gridCell s.grid (4 + 4 * (b / 4) + ch / 4) (4 + 4 * (b % 4) + ch % 4))
  ∧ LegalExactly 0x31 noOperands

/-- R141, an inference of the spec: the overlay cell by cell in closed form, with 78 black finder cells of 144. R142: it
is idempotent, and the finder region of its result does not depend on its input. -/
def Obligations.OverlayPattern : Prop :=
  (∀ g : Grid, ∀ r, r < 20 → ∀ c, c < 20 → gridCell (overlay g) r c =
    if r < 4 ∨ c < 4 then
      decide (r = 0 ∨ c = 0 ∨ (r = 2 ∧ 2 ≤ c) ∨ (c = 2 ∧ 2 ≤ r) ∨ (r, c) ∈ [(1, 3), (3, 1), (1, 19), (19, 1)])
    else gridCell g r c)
  ∧ ((List.range 20).flatMap fun r => (List.range 20).filter fun c => inFinder r c).length = 144
  ∧ ((List.range 20).flatMap fun r => (List.range 20).filter fun c => inFinder r c && finder r c).length = 78
  ∧ (∀ g : Grid, overlay (overlay g) = overlay g)
  ∧ (∀ g h : Grid, ∀ r, r < 20 → ∀ c, c < 20 → (r < 4 ∨ c < 4) →
      gridCell (overlay g) r c = gridCell (overlay h) r c)

/-- R145: `OVL` forces the finder region, keeps the data region and changes nothing where the finder invariant holds. -/
def Obligations.OvlForcesTheFinder : Prop :=
  (∀ s : State, ∃ t, exec .ovl s = .next t
    ∧ t = { s with grid := t.grid, responses := ⟨.ok, 0⟩ :: s.responses }
    ∧ FinderIntact t.grid ∧ SameDataRegion s.grid t.grid
    ∧ (FinderIntact s.grid → t.grid = s.grid))
  ∧ LegalExactly 0x34 noOperands

/-- R146: `TOG` of a data cell inverts it, keeps the other data cells and applies the overlay; of a finder cell it
changes nothing; outside the grid it is an illegal command. -/
def Obligations.TogInvertsDataCells : Prop :=
  (∀ (r c : BitVec 5) (s : State), 4 ≤ r.toNat → r.toNat ≤ 19 → 4 ≤ c.toNat → c.toNat ≤ 19 →
    ∃ t, exec (.tog r c) s = .next t
      ∧ t = { s with grid := t.grid, responses := ⟨.ok, 1⟩ :: s.responses }
      ∧ FinderIntact t.grid
      ∧ ∀ a, 4 ≤ a → a ≤ 19 → ∀ b, 4 ≤ b → b ≤ 19 → gridCell t.grid a b =
          if a = r.toNat ∧ b = c.toNat then !gridCell s.grid a b else gridCell s.grid a b)
  ∧ (∀ (r c : BitVec 5) (s : State), r.toNat ≤ 19 → c.toNat ≤ 19 → (r.toNat < 4 ∨ c.toNat < 4) →
      exec (.tog r c) s = .next (answered s .ok 0))
  ∧ (∀ (r c : BitVec 5) (s : State), (19 < r.toNat ∨ 19 < c.toNat) → exec (.tog r c) s = illegalAnswer s)
  ∧ LegalExactly 0x35 (fun idx imm => idx.toNat ≤ 19 ∧ imm.toNat ≤ 19)

/-! ### Pipelines -/

/-- R151: `ENCODE` writes the message of the payload and the draw, its codewords, their cells and the overlay, and
clears `PTL`; a length above 21 is PayloadTooLarge. Afterwards the grid is `encode_bytes` (R150) and both invariants
hold. -/
def Obligations.EncodeWritesEveryStage : Prop :=
  (∀ s : State, s.plen.toNat ≤ 21 →
    ∃ t m, exec .encode s = .next t ∧ buildMessage s.pay s.plen.toNat s.draw = some m
      ∧ t = { s with msg := m, cw := t.cw, grid := t.grid, stat := { s.stat with ptl := false },
                     responses := ⟨.ok, BitVec.ofNat 20 (168 - 8 * s.plen.toNat)⟩ :: s.responses }
      ∧ (∀ ch, ch < 16 → readAt t.cw ch = henc (messageChunk m ch))
      ∧ (∀ b, b < 16 → ∀ ch, ch < 16 →
          gridCell t.grid (cellOf b ch).1 (cellOf b ch).2 = (readAt t.cw ch).getLsbD b)
      ∧ FinderIntact t.grid ∧ Partition t
      ∧ encodeBytes s.pay s.plen.toNat s.draw = some t.grid)
  ∧ (∀ s : State, 21 < s.plen.toNat → exec .encode s = tooLargeAnswer s)
  ∧ LegalExactly 0x38 noOperands

/-- An inference of the spec in R151: `ENCODE` has exactly the effect of `BUILD; HENCA; PLACE` with the same draw and
the response of `BUILD`. -/
def Obligations.EncodeIsBuildHencaPlace : Prop :=
  ∀ s : State, s.plen.toNat ≤ 21 →
    ∃ a b c t, exec .build s = .next a ∧ exec .henca a = .next b ∧ exec .place b = .next c ∧ exec .encode s = .next t
      ∧ t = { c with responses := a.responses }

/-- R154: `DECODE` is `EXTR`, then `HDECA`, then, when no chunk is a double error, `UNPK`; it answers the new length and
32 times the count, or the rejection of `HDECA`. -/
def Obligations.DecodeIsExtrHdecaUnpk : Prop :=
  (∀ s : State, NoDoubleError (extract s.grid) →
    ∃ a b c t, exec .extr s = .next a ∧ exec .hdeca a = .next b ∧ exec .unpk b = .next c ∧ exec .decode s = .next t
      ∧ t = { c with responses :=
          ⟨.ok, BitVec.ofNat 20 (c.plen.toNat + 32 * correctedBefore (extract s.grid) 16)⟩ :: s.responses }
      ∧ t.grid = s.grid ∧ t.stat.ptl = s.stat.ptl
      ∧ t.stat.corr.toNat = correctedBefore (extract s.grid) 16)
  ∧ (∀ (s : State) (ch : Nat), FirstDoubleError (extract s.grid) ch →
    ∃ a b t, exec .extr s = .next a ∧ exec .hdeca a = .next b ∧ exec .decode s = .next t
      ∧ t = { b with responses := ⟨.doubleBitErrorRejected, BitVec.ofNat 20 ch⟩ :: s.responses }
      ∧ t.msg = s.msg ∧ t.pay = s.pay ∧ t.plen = s.plen ∧ t.grid = s.grid)
  ∧ LegalExactly 0x39 noOperands

/-- R155: after a rejected `DECODE`, `PAY`, `PLEN` and `MSG` hold what they held, `CW` is the extraction, `STAT`
describes the rejected chunk; issuing it again gives the same rejection. -/
def Obligations.RejectedDecodeLeavesThePayload : Prop :=
  ∀ (s : State) (ch : Nat), FirstDoubleError (extract s.grid) ch →
    ∃ t u, exec .decode s = .next t
      ∧ t = { s with
          cw := extract s.grid,
          stat := { s.stat with
            dbe := true, cor := false, ovr := false, syn := (hdec (readAt (extract s.grid) ch)).syndrome,
            ech := BitVec.ofNat 4 ch, corr := BitVec.ofNat 5 (correctedBefore (extract s.grid) ch) },
          responses := ⟨.doubleBitErrorRejected, BitVec.ofNat 20 ch⟩ :: s.responses }
      ∧ t.stat.syn ≠ 0 ∧ t.stat.ech.toNat = ch ∧ t.stat.corr.toNat = correctedBefore (extract s.grid) ch
      ∧ exec .decode t = .next u ∧ SameRegisters t u
      ∧ u.responses = ⟨.doubleBitErrorRejected, BitVec.ofNat 20 ch⟩ :: t.responses

/-- R157, an inference of the spec: the round trip, for every payload free of 0x00 and every draw. -/
def Obligations.RoundTrip : Prop :=
  (∀ (payload : Payload) (n : Nat) (rnd : Draw), n ≤ 21 → (∀ k, k < n → readAt payload k ≠ 0) →
    ∃ g bytes, encodeBytes payload n rnd = some g ∧ decodeGrid g = .decoded bytes n 0
      ∧ ∀ k, k < n → bytes.getD k 0 = readAt payload k)
  ∧ (∀ s : State, s.plen.toNat ≤ 21 → (∀ k, k < s.plen.toNat → readAt s.pay k ≠ 0) →
    ∃ t u, exec .encode s = .next t ∧ exec .decode t = .next u
      ∧ u.plen = s.plen ∧ (∀ k, k < s.plen.toNat → readAt u.pay k = readAt s.pay k)
      ∧ u.stat.corr = 0
      ∧ u.responses = ⟨.ok, BitVec.ofNat 20 s.plen.toNat⟩ :: t.responses)

/-- R158, an inference of the spec: a toggle of any one data cell of an encoded grid is corrected, with count 1; and one
flipped bit in each of any set of chunks decodes to the same bytes with their number as the count. -/
def Obligations.SingleBitResilience : Prop :=
  (∀ (s : State) (i j : Nat), i < 16 → j < 16 → s.plen.toNat ≤ 21 → (∀ k, k < s.plen.toNat → readAt s.pay k ≠ 0) →
    ∃ t u v, exec .encode s = .next t
      ∧ exec (.tog (BitVec.ofNat 5 (cellOf j i).1) (BitVec.ofNat 5 (cellOf j i).2)) t = .next u
      ∧ exec .decode u = .next v
      ∧ v.plen = s.plen ∧ (∀ k, k < s.plen.toNat → readAt v.pay k = readAt s.pay k)
      ∧ v.stat.corr = 1
      ∧ v.responses = ⟨.ok, BitVec.ofNat 20 (s.plen.toNat + 32)⟩ :: u.responses)
  ∧ (∀ (payload : Payload) (n : Nat) (rnd : Draw) (g h : Grid) (hit : Nat → Option Nat),
      n ≤ 21 → (∀ k, k < n → readAt payload k ≠ 0) → encodeBytes payload n rnd = some g →
      HitOncePerChunk g h hit (fun _ => True) →
      ∃ bytes, decodeGrid g = .decoded bytes n 0
        ∧ decodeGrid h = .decoded bytes n ((List.range 16).filter fun ch => (hit ch).isSome).length)

/-- R159, an inference of the spec: two toggles in one chunk of an encoded grid are rejected, naming the chunk; and so
are two flipped bits in chunk `i` when every earlier chunk is clean or singly corrupted, whatever the later chunks hold.
-/
def Obligations.DoubleBitDetection : Prop :=
  (∀ (s : State) (i j k : Nat), i < 16 → j < 16 → k < 16 → j ≠ k → s.plen.toNat ≤ 21 →
    ∃ t u v x, exec .encode s = .next t
      ∧ exec (.tog (BitVec.ofNat 5 (cellOf j i).1) (BitVec.ofNat 5 (cellOf j i).2)) t = .next u
      ∧ exec (.tog (BitVec.ofNat 5 (cellOf k i).1) (BitVec.ofNat 5 (cellOf k i).2)) u = .next v
      ∧ exec .decode v = .next x
      ∧ x.responses = ⟨.doubleBitErrorRejected, BitVec.ofNat 20 i⟩ :: v.responses
      ∧ x.pay = s.pay ∧ x.plen = s.plen ∧ x.msg = t.msg)
  ∧ (∀ (payload : Payload) (n : Nat) (rnd : Draw) (g h : Grid) (hit : Nat → Option Nat) (i j k : Nat),
      n ≤ 21 → encodeBytes payload n rnd = some g → i < 16 → j < 16 → k < 16 → j ≠ k →
      HitOncePerChunk g h hit (fun ch => ch < i) → HitTwice g h i j k →
      decodeGrid h = .rejected i)

/-- R195: two `ENCODE`s on the same `PAY` and `PLEN`, whatever else their states hold, give the same grid if and only if
their draws agree on the first `168 - 8·PLEN` bits, and what `DECODE` then gives as the payload does not depend on the
draws. -/
def Obligations.DrawDecidesTheGrid : Prop :=
  ∀ s s' : State, s'.pay = s.pay → s'.plen = s.plen → s.plen.toNat ≤ 21 →
    ∃ t t', exec .encode s = .next t ∧ exec .encode s' = .next t'
      ∧ (t.grid = t'.grid ↔ ∀ j, j < 168 - 8 * s.plen.toNat → s.draw.getLsbD j = s'.draw.getLsbD j)
      ∧ ∃ u u', exec .decode t = .next u ∧ exec .decode t' = .next u' ∧ u.responses.head? = u'.responses.head?
          ∧ u.plen = u'.plen ∧ ∀ k, k < u.plen.toNat → readAt u.pay k = readAt u'.pay k

/-- R156: the finder cells of the grid have no influence on any result, response or `STAT` field of `DECODE` or `EXTR`.
-/
def Obligations.DecodingIgnoresTheFinder : Prop :=
  ∀ (s : State) (h : Grid), SameDataRegion s.grid h →
    (∃ t, exec .decode s = .next t ∧ exec .decode { s with grid := h } = .next { t with grid := h })
    ∧ (∃ t, exec .extr s = .next t ∧ exec .extr { s with grid := h } = .next { t with grid := h })
end

