-- ==== Sys2Proof/Laws/Bits.lean ====
section
/-!
SUPPORT. What each operation of Machine/Bits.lean does, read one bit, one element or one cell at a time.
-/

namespace Sys2Proof.Machine

-- One theorem after another: proofs elaborated side by side each hold a thread with its own stack.
set_option Elab.async false

/-! ### Bit sequences -/

theorem testBit_natOfSeq (bits : List Bool) (i : Nat) : (natOfSeq bits).testBit i = bits.getD i false := by
  induction bits generalizing i with
  | nil => simp [natOfSeq]
  | cons b bs ih =>
    cases i with
    | zero => cases b <;> simp [natOfSeq, Nat.testBit_zero]
    | succ i =>
      have h : natOfSeq (b :: bs) / 2 = natOfSeq bs := by
        have := b.toNat_lt
        rw [natOfSeq]; omega
      rw [Nat.testBit_succ, h, ih]; simp

theorem natOfSeq_lt (bits : List Bool) : natOfSeq bits < 2 ^ bits.length := by
  induction bits with
  | nil => simp [natOfSeq]
  | cons b bs ih => cases b <;> simp [natOfSeq, Nat.pow_succ] <;> omega

theorem toNat_ofSeq {n : Nat} {bits : List Bool} (h : bits.length ≤ n) : (ofSeq n bits).toNat = natOfSeq bits := by
  have h2 : 2 ^ bits.length ≤ 2 ^ n := Nat.pow_le_pow_right (by decide) h
  have h3 := natOfSeq_lt bits
  simp only [ofSeq, BitVec.toNat_ofNat]
  exact Nat.mod_eq_of_lt (by omega)

theorem getLsbD_ofSeq (n : Nat) (bits : List Bool) (i : Nat) :
    (ofSeq n bits).getLsbD i = (decide (i < n) && bits.getD i false) := by
  simp [ofSeq, BitVec.getLsbD_ofNat, testBit_natOfSeq]

theorem getD_map_range {α : Type} (n : Nat) (f : Nat → α) (d : α) (i : Nat) :
    ((List.range n).map f).getD i d = if i < n then f i else d := by
  by_cases h : i < n <;> simp [List.getD, h]

@[simp] theorem getLsbD_ofBits (n : Nat) (f : Nat → Bool) (i : Nat) :
    (ofBits n f).getLsbD i = (decide (i < n) && f i) := by
  rw [ofBits, getLsbD_ofSeq, getD_map_range]
  by_cases h : i < n <;> simp [h]

@[simp] theorem getElem_ofBits (n : Nat) (f : Nat → Bool) (i : Nat) (h : i < n) : (ofBits n f)[i] = f i := by
  rw [← BitVec.getLsbD_eq_getElem, getLsbD_ofBits]; simp [h]

theorem ofBits_getLsbD {n : Nat} (x : BitVec n) : ofBits n x.getLsbD = x := by
  apply BitVec.eq_of_getLsbD_eq
  intro i h
  simp [h]

theorem ofBits_congr {n : Nat} {f g : Nat → Bool} (h : ∀ i, i < n → f i = g i) : ofBits n f = ofBits n g := by
  apply BitVec.eq_of_getLsbD_eq
  intro i hi
  simp [h i hi]

@[simp] theorem length_bitsOf {n : Nat} (x : BitVec n) : (bitsOf x).length = n := by simp [bitsOf]

@[simp] theorem getD_bitsOf {n : Nat} (x : BitVec n) (i : Nat) : (bitsOf x).getD i false = x.getLsbD i := by
  rw [bitsOf, getD_map_range]
  by_cases h : i < n
  · simp [h]
  · simp [h, BitVec.getLsbD_of_ge x i (by omega)]

theorem ofSeq_bitsOf {n : Nat} (x : BitVec n) : ofSeq n (bitsOf x) = x := ofBits_getLsbD x

theorem bitsOf_ofSeq {n : Nat} {bits : List Bool} (h : bits.length = n) : bitsOf (ofSeq n bits) = bits := by
  apply List.ext_getElem
  · simp [h]
  · intro i h1 h2
    have := getD_bitsOf (ofSeq n bits) i
    rw [getLsbD_ofSeq] at this
    simp only [length_bitsOf] at h1
    simpa [List.getD, h1, h2] using this

@[simp] theorem getLsbD_setBit {n : Nat} (x : BitVec n) (i : Nat) (b : Bool) (k : Nat) :
    (setBit x i b).getLsbD k = (decide (k < n) && if k = i then b else x.getLsbD k) := by
  simp [setBit]

@[simp] theorem getElem_setBit {n : Nat} (x : BitVec n) (i : Nat) (b : Bool) (k : Nat) (h : k < n) :
    (setBit x i b)[k] = if k = i then b else x[k] := by
  simp [setBit, h]

/-! ### Parity -/

@[simp] theorem xorAll_nil : xorAll [] = false := rfl

@[simp] theorem xorAll_cons (b : Bool) (bs : List Bool) : xorAll (b :: bs) = (b ^^ xorAll bs) := rfl

theorem xorAll_map_xor {α : Type} (l : List α) (f g : α → Bool) :
    xorAll (l.map fun a => f a ^^ g a) = (xorAll (l.map f) ^^ xorAll (l.map g)) := by
  induction l with
  | nil => simp
  | cons a l ih => simp only [List.map_cons, xorAll_cons, ih]; cases f a <;> cases g a <;> simp

theorem parityAt_xor {n : Nat} (x y : BitVec n) (indices : List Nat) :
    parityAt (x ^^^ y) indices = (parityAt x indices ^^ parityAt y indices) := by
  simp only [parityAt, ← xorAll_map_xor]
  congr 1
  apply List.map_congr_left
  intro i _
  simp

/-! ### Register files -/

theorem readAt_tabulate {w n i : Nat} (f : Nat → BitVec w) (h : i < n) : readAt (tabulate n f) i = f i := by
  simp [readAt, tabulate, h]

theorem readAt_writeAt {w n i : Nat} (xs : Vector (BitVec w) n) (j : Nat) (v : BitVec w) (h : i < n) :
    readAt (writeAt xs j v) i = if i = j then v else readAt xs i := by
  by_cases hj : i = j
  · subst hj; simp [readAt, writeAt, h]
  · simp [readAt, writeAt, h, hj, Ne.symm hj]

theorem readAt_of_ge {w n i : Nat} (xs : Vector (BitVec w) n) (h : n ≤ i) : readAt xs i = 0 := by
  simp [readAt, Vector.getElem?_eq_none h]

theorem readAt_ext {w n : Nat} {xs ys : Vector (BitVec w) n} (h : ∀ i, i < n → readAt xs i = readAt ys i) : xs = ys := by
  apply Vector.ext
  intro i hi
  simpa [readAt, hi] using h i hi

theorem tabulate_readAt {w n : Nat} (xs : Vector (BitVec w) n) : tabulate n (readAt xs) = xs :=
  readAt_ext fun _ h => readAt_tabulate _ h

theorem writeAt_readAt {w n : Nat} (xs : Vector (BitVec w) n) (i : Nat) : writeAt xs i (readAt xs i) = xs :=
  readAt_ext fun k h => by
    rw [readAt_writeAt _ _ _ h]
    split
    · next e => rw [e]
    · rfl

theorem getD_toList {w n i : Nat} (xs : Vector (BitVec w) n) : xs.toList.getD i 0 = readAt xs i := by
  by_cases h : i < n
  · simp [readAt, List.getD, h]
  · simp [readAt, List.getD, h]

/-! ### Cells -/

theorem gridCell_gridOf (f : Nat → Nat → Bool) {r c : Nat} (hr : r < 20) (hc : c < 20) :
    gridCell (gridOf f) r c = f r c := by
  simp [gridCell, gridOf, readAt_tabulate _ hr, hc]

theorem gridCell_setCell (g : Grid) (r c : Nat) (b : Bool) {a d : Nat} (ha : a < 20) (hd : d < 20) :
    gridCell (setCell g r c b) a d = if a = r ∧ d = c then b else gridCell g a d := by
  rw [gridCell, setCell, readAt_writeAt _ _ _ ha]
  by_cases h : a = r
  · subst h; simp [gridCell, hd]
  · simp [h, gridCell]

theorem grid_ext {g h : Grid} (e : ∀ r, r < 20 → ∀ c, c < 20 → gridCell g r c = gridCell h r c) : g = h :=
  readAt_ext fun r hr => BitVec.eq_of_getLsbD_eq fun c hc => e r hr c hc

end Sys2Proof.Machine
end

