-- ==== Sys2Proof/Laws/Hamming.lean ====
section
/-!
SUPPORT. The checks of a received word are linear: the syndrome and the overall parity of an exclusive-or of two words.
-/

namespace Sys2Proof.Machine

-- One theorem after another: proofs elaborated side by side each hold a thread with its own stack.
set_option Elab.async false

theorem checkBit_xor (x y : Codeword) (p : Nat) : checkBit (x ^^^ y) p = (checkBit x p ^^ checkBit y p) :=
  parityAt_xor x y (covered p)

theorem overall_xor (x y : Codeword) : overall (x ^^^ y) = (overall x ^^ overall y) :=
  parityAt_xor x y (List.range 16)

theorem syndrome_xor (x y : Codeword) : syndrome (x ^^^ y) = syndrome x ^^^ syndrome y := by
  simp only [syndrome, checkBit_xor]
  cases checkBit x 1 <;> cases checkBit x 2 <;> cases checkBit x 4 <;> cases checkBit x 8 <;>
    cases checkBit y 1 <;> cases checkBit y 2 <;> cases checkBit y 4 <;> cases checkBit y 8 <;> decide

end Sys2Proof.Machine
end

