-- ==== Sys2Proof/Laws/Mapping.lean ====
section
/-!
SUPPORT. What the mapper and the lines of the overlay give, one cell or one codeword bit at a time.
-/

namespace Sys2Proof.Machine

-- One theorem after another: proofs elaborated side by side each hold a thread with its own stack.
set_option Elab.async false

theorem inFinder_iff {r c : Nat} : inFinder r c = true ↔ r < 4 ∨ c < 4 := by simp [inFinder]

theorem inFinder_eq_false_iff {r c : Nat} : inFinder r c = false ↔ 4 ≤ r ∧ 4 ≤ c := by simp [inFinder]

theorem gridCell_placeCells (cws : Codewords) (g : Grid) {r c : Nat} (hr : r < 20) (hc : c < 20) :
    gridCell (placeCells cws g) r c =
      if inFinder r c then gridCell g r c else (readAt cws (bitOf r c).2).getLsbD (bitOf r c).1 :=
  gridCell_gridOf _ hr hc

theorem getLsbD_extract (g : Grid) {b ch : Nat} (hb : b < 16) (hch : ch < 16) :
    (readAt (extract g) ch).getLsbD b = gridCell g (cellOf b ch).1 (cellOf b ch).2 := by
  rw [extract, readAt_tabulate _ hch, getLsbD_ofBits]; simp [hb]

theorem gridCell_fillCells (region : Nat → Nat → Bool) (b : Bool) (g : Grid) {r c : Nat} (hr : r < 20) (hc : c < 20) :
    gridCell (fillCells region b g) r c = if region r c then b else gridCell g r c :=
  gridCell_gridOf _ hr hc

/-- R141: the overlay writes the finder pattern and keeps the data cells. -/
theorem gridCell_overlay (g : Grid) {r c : Nat} (hr : r < 20) (hc : c < 20) :
    gridCell (overlay g) r c = if inFinder r c then finder r c else gridCell g r c := by
  simp only [overlay, gridCell_fillCells _ _ _ hr hc, finder]
  cases h : inFinder r c
  · rw [inFinder_eq_false_iff] at h
    have e0 : (r == 0) = false := by simp; omega
    have e1 : (c == 0) = false := by simp; omega
    have e2 : (r == 2) = false := by simp; omega
    have e3 : (c == 2) = false := by simp; omega
    have e4 : isMarker r c = false := by simp [isMarker]; omega
    simp [e0, e1, e2, e3, e4]
  · cases isMarker r c <;> cases (r == 0) <;> cases (c == 0) <;> cases (r == 2 && decide (2 ≤ c)) <;>
      cases (c == 2 && decide (2 ≤ r)) <;> simp

end Sys2Proof.Machine
end

