-- ==== Sys2Proof/Laws/State.lean ====
section
/-!
SUPPORT. One lemma per field per update of the state, so that no proof unfolds a record update.
-/

namespace Sys2Proof.Machine

-- One theorem after another: proofs elaborated side by side each hold a thread with its own stack.
set_option Elab.async false

/-! ### Register writes -/

@[simp] theorem State.withPay_pay (s : State) (v : Payload) : (s.withPay v).pay = v := rfl
@[simp] theorem State.withPay_plen (s : State) (v : Payload) : (s.withPay v).plen = s.plen := rfl
@[simp] theorem State.withPay_msg (s : State) (v : Payload) : (s.withPay v).msg = s.msg := rfl
@[simp] theorem State.withPay_cw (s : State) (v : Payload) : (s.withPay v).cw = s.cw := rfl
@[simp] theorem State.withPay_grid (s : State) (v : Payload) : (s.withPay v).grid = s.grid := rfl
@[simp] theorem State.withPay_stat (s : State) (v : Payload) : (s.withPay v).stat = s.stat := rfl
@[simp] theorem State.withPay_pending (s : State) (v : Payload) : (s.withPay v).pending = s.pending := rfl
@[simp] theorem State.withPay_draw (s : State) (v : Payload) : (s.withPay v).draw = s.draw := rfl
@[simp] theorem State.withPay_responses (s : State) (v : Payload) : (s.withPay v).responses = s.responses := rfl

@[simp] theorem State.withPlen_pay (s : State) (v : BitVec 5) : (s.withPlen v).pay = s.pay := rfl
@[simp] theorem State.withPlen_plen (s : State) (v : BitVec 5) : (s.withPlen v).plen = v := rfl
@[simp] theorem State.withPlen_msg (s : State) (v : BitVec 5) : (s.withPlen v).msg = s.msg := rfl
@[simp] theorem State.withPlen_cw (s : State) (v : BitVec 5) : (s.withPlen v).cw = s.cw := rfl
@[simp] theorem State.withPlen_grid (s : State) (v : BitVec 5) : (s.withPlen v).grid = s.grid := rfl
@[simp] theorem State.withPlen_stat (s : State) (v : BitVec 5) : (s.withPlen v).stat = s.stat := rfl
@[simp] theorem State.withPlen_pending (s : State) (v : BitVec 5) : (s.withPlen v).pending = s.pending := rfl
@[simp] theorem State.withPlen_draw (s : State) (v : BitVec 5) : (s.withPlen v).draw = s.draw := rfl
@[simp] theorem State.withPlen_responses (s : State) (v : BitVec 5) : (s.withPlen v).responses = s.responses := rfl

@[simp] theorem State.withMsg_pay (s : State) (v : Message) : (s.withMsg v).pay = s.pay := rfl
@[simp] theorem State.withMsg_plen (s : State) (v : Message) : (s.withMsg v).plen = s.plen := rfl
@[simp] theorem State.withMsg_msg (s : State) (v : Message) : (s.withMsg v).msg = v := rfl
@[simp] theorem State.withMsg_cw (s : State) (v : Message) : (s.withMsg v).cw = s.cw := rfl
@[simp] theorem State.withMsg_grid (s : State) (v : Message) : (s.withMsg v).grid = s.grid := rfl
@[simp] theorem State.withMsg_stat (s : State) (v : Message) : (s.withMsg v).stat = s.stat := rfl
@[simp] theorem State.withMsg_pending (s : State) (v : Message) : (s.withMsg v).pending = s.pending := rfl
@[simp] theorem State.withMsg_draw (s : State) (v : Message) : (s.withMsg v).draw = s.draw := rfl
@[simp] theorem State.withMsg_responses (s : State) (v : Message) : (s.withMsg v).responses = s.responses := rfl

@[simp] theorem State.withCw_pay (s : State) (v : Codewords) : (s.withCw v).pay = s.pay := rfl
@[simp] theorem State.withCw_plen (s : State) (v : Codewords) : (s.withCw v).plen = s.plen := rfl
@[simp] theorem State.withCw_msg (s : State) (v : Codewords) : (s.withCw v).msg = s.msg := rfl
@[simp] theorem State.withCw_cw (s : State) (v : Codewords) : (s.withCw v).cw = v := rfl
@[simp] theorem State.withCw_grid (s : State) (v : Codewords) : (s.withCw v).grid = s.grid := rfl
@[simp] theorem State.withCw_stat (s : State) (v : Codewords) : (s.withCw v).stat = s.stat := rfl
@[simp] theorem State.withCw_pending (s : State) (v : Codewords) : (s.withCw v).pending = s.pending := rfl
@[simp] theorem State.withCw_draw (s : State) (v : Codewords) : (s.withCw v).draw = s.draw := rfl
@[simp] theorem State.withCw_responses (s : State) (v : Codewords) : (s.withCw v).responses = s.responses := rfl

@[simp] theorem State.withGrid_pay (s : State) (v : Grid) : (s.withGrid v).pay = s.pay := rfl
@[simp] theorem State.withGrid_plen (s : State) (v : Grid) : (s.withGrid v).plen = s.plen := rfl
@[simp] theorem State.withGrid_msg (s : State) (v : Grid) : (s.withGrid v).msg = s.msg := rfl
@[simp] theorem State.withGrid_cw (s : State) (v : Grid) : (s.withGrid v).cw = s.cw := rfl
@[simp] theorem State.withGrid_grid (s : State) (v : Grid) : (s.withGrid v).grid = v := rfl
@[simp] theorem State.withGrid_stat (s : State) (v : Grid) : (s.withGrid v).stat = s.stat := rfl
@[simp] theorem State.withGrid_pending (s : State) (v : Grid) : (s.withGrid v).pending = s.pending := rfl
@[simp] theorem State.withGrid_draw (s : State) (v : Grid) : (s.withGrid v).draw = s.draw := rfl
@[simp] theorem State.withGrid_responses (s : State) (v : Grid) : (s.withGrid v).responses = s.responses := rfl

@[simp] theorem State.withStat_pay (s : State) (v : Stat) : (s.withStat v).pay = s.pay := rfl
@[simp] theorem State.withStat_plen (s : State) (v : Stat) : (s.withStat v).plen = s.plen := rfl
@[simp] theorem State.withStat_msg (s : State) (v : Stat) : (s.withStat v).msg = s.msg := rfl
@[simp] theorem State.withStat_cw (s : State) (v : Stat) : (s.withStat v).cw = s.cw := rfl
@[simp] theorem State.withStat_grid (s : State) (v : Stat) : (s.withStat v).grid = s.grid := rfl
@[simp] theorem State.withStat_stat (s : State) (v : Stat) : (s.withStat v).stat = v := rfl
@[simp] theorem State.withStat_pending (s : State) (v : Stat) : (s.withStat v).pending = s.pending := rfl
@[simp] theorem State.withStat_draw (s : State) (v : Stat) : (s.withStat v).draw = s.draw := rfl
@[simp] theorem State.withStat_responses (s : State) (v : Stat) : (s.withStat v).responses = s.responses := rfl

/-! ### The response -/

@[simp] theorem State.respond_pay (s : State) (c : RespCode) (v : Value) : (s.respond c v).pay = s.pay := rfl
@[simp] theorem State.respond_plen (s : State) (c : RespCode) (v : Value) : (s.respond c v).plen = s.plen := rfl
@[simp] theorem State.respond_msg (s : State) (c : RespCode) (v : Value) : (s.respond c v).msg = s.msg := rfl
@[simp] theorem State.respond_cw (s : State) (c : RespCode) (v : Value) : (s.respond c v).cw = s.cw := rfl
@[simp] theorem State.respond_grid (s : State) (c : RespCode) (v : Value) : (s.respond c v).grid = s.grid := rfl
@[simp] theorem State.respond_stat (s : State) (c : RespCode) (v : Value) : (s.respond c v).stat = s.stat := rfl
@[simp] theorem State.respond_pending (s : State) (c : RespCode) (v : Value) : (s.respond c v).pending = s.pending := rfl
@[simp] theorem State.respond_draw (s : State) (c : RespCode) (v : Value) : (s.respond c v).draw = s.draw := rfl
@[simp] theorem State.respond_responses (s : State) (c : RespCode) (v : Value) : (s.respond c v).responses = ⟨c, v⟩ :: s.responses := rfl

/-! ### The reset -/

@[simp] theorem State.resetRegisters_pay (s : State) : s.resetRegisters.pay = State.reset.pay := rfl
@[simp] theorem State.resetRegisters_plen (s : State) : s.resetRegisters.plen = State.reset.plen := rfl
@[simp] theorem State.resetRegisters_msg (s : State) : s.resetRegisters.msg = State.reset.msg := rfl
@[simp] theorem State.resetRegisters_cw (s : State) : s.resetRegisters.cw = State.reset.cw := rfl
@[simp] theorem State.resetRegisters_grid (s : State) : s.resetRegisters.grid = State.reset.grid := rfl
@[simp] theorem State.resetRegisters_stat (s : State) : s.resetRegisters.stat = State.reset.stat := rfl
@[simp] theorem State.resetRegisters_pending (s : State) : s.resetRegisters.pending = s.pending := rfl
@[simp] theorem State.resetRegisters_draw (s : State) : s.resetRegisters.draw = s.draw := rfl
@[simp] theorem State.resetRegisters_responses (s : State) : s.resetRegisters.responses = s.responses := rfl

/-! ### The reset values -/

@[simp] theorem State.reset_pay : State.reset.pay = tabulate 22 fun _ => 0 := rfl
@[simp] theorem State.reset_plen : State.reset.plen = 0 := rfl
@[simp] theorem State.reset_msg : State.reset.msg = 0 := rfl
@[simp] theorem State.reset_cw : State.reset.cw = tabulate 16 fun _ => 0 := rfl
@[simp] theorem State.reset_grid : State.reset.grid = freshGrid := rfl
@[simp] theorem State.reset_stat : State.reset.stat = Stat.zero := rfl

/-! ### Issuing a command -/

@[simp] theorem State.issueNext_pay (s : State) (w : Word) : (s.issueNext w).pay = s.pay := rfl
@[simp] theorem State.issueNext_plen (s : State) (w : Word) : (s.issueNext w).plen = s.plen := rfl
@[simp] theorem State.issueNext_msg (s : State) (w : Word) : (s.issueNext w).msg = s.msg := rfl
@[simp] theorem State.issueNext_cw (s : State) (w : Word) : (s.issueNext w).cw = s.cw := rfl
@[simp] theorem State.issueNext_grid (s : State) (w : Word) : (s.issueNext w).grid = s.grid := rfl
@[simp] theorem State.issueNext_stat (s : State) (w : Word) : (s.issueNext w).stat = s.stat := rfl
@[simp] theorem State.issueNext_pending (s : State) (w : Word) : (s.issueNext w).pending = .command w s.draw :: s.pending := rfl
@[simp] theorem State.issueNext_draw (s : State) (w : Word) : (s.issueNext w).draw = s.draw := rfl
@[simp] theorem State.issueNext_responses (s : State) (w : Word) : (s.issueNext w).responses = s.responses := rfl

/-! ### `STAT` -/

@[simp] theorem Stat.withPtl_ptl (st : Stat) (b : Bool) : (st.withPtl b).ptl = b := rfl
@[simp] theorem Stat.withPtl_dbe (st : Stat) (b : Bool) : (st.withPtl b).dbe = st.dbe := rfl
@[simp] theorem Stat.withPtl_cor (st : Stat) (b : Bool) : (st.withPtl b).cor = st.cor := rfl
@[simp] theorem Stat.withPtl_ovr (st : Stat) (b : Bool) : (st.withPtl b).ovr = st.ovr := rfl
@[simp] theorem Stat.withPtl_syn (st : Stat) (b : Bool) : (st.withPtl b).syn = st.syn := rfl
@[simp] theorem Stat.withPtl_ech (st : Stat) (b : Bool) : (st.withPtl b).ech = st.ech := rfl
@[simp] theorem Stat.withPtl_corr (st : Stat) (b : Bool) : (st.withPtl b).corr = st.corr := rfl

@[simp] theorem Stat.withVerdict_ptl (st : Stat) (ch : Nat) (v : Verdict) :
    (st.withVerdict ch v).ptl = st.ptl := rfl
@[simp] theorem Stat.withVerdict_dbe (st : Stat) (ch : Nat) (v : Verdict) :
    (st.withVerdict ch v).dbe = v.doubleError := rfl
@[simp] theorem Stat.withVerdict_cor (st : Stat) (ch : Nat) (v : Verdict) :
    (st.withVerdict ch v).cor = v.corrected := rfl
@[simp] theorem Stat.withVerdict_ovr (st : Stat) (ch : Nat) (v : Verdict) :
    (st.withVerdict ch v).ovr = v.overall := rfl
@[simp] theorem Stat.withVerdict_syn (st : Stat) (ch : Nat) (v : Verdict) :
    (st.withVerdict ch v).syn = v.syndrome := rfl
@[simp] theorem Stat.withVerdict_ech (st : Stat) (ch : Nat) (v : Verdict) :
    (st.withVerdict ch v).ech = BitVec.ofNat 4 ch := rfl
@[simp] theorem Stat.withVerdict_corr (st : Stat) (ch : Nat) (v : Verdict) :
    (st.withVerdict ch v).corr = st.corr := rfl

@[simp] theorem Stat.withCorr_ptl (st : Stat) (n : Nat) : (st.withCorr n).ptl = st.ptl := rfl
@[simp] theorem Stat.withCorr_dbe (st : Stat) (n : Nat) : (st.withCorr n).dbe = st.dbe := rfl
@[simp] theorem Stat.withCorr_cor (st : Stat) (n : Nat) : (st.withCorr n).cor = st.cor := rfl
@[simp] theorem Stat.withCorr_ovr (st : Stat) (n : Nat) : (st.withCorr n).ovr = st.ovr := rfl
@[simp] theorem Stat.withCorr_syn (st : Stat) (n : Nat) : (st.withCorr n).syn = st.syn := rfl
@[simp] theorem Stat.withCorr_ech (st : Stat) (n : Nat) : (st.withCorr n).ech = st.ech := rfl
@[simp] theorem Stat.withCorr_corr (st : Stat) (n : Nat) : (st.withCorr n).corr = BitVec.ofNat 5 n := rfl

end Sys2Proof.Machine
end

