-- ==== Sys2Proof/Laws/Ops.lean ====
section
/-!
SUPPORT. What each shared operation answers: the operand forms, the faults, the next input, and the operations that the
pipelines share with the single commands.
-/

namespace Sys2Proof.Machine

-- One theorem after another: proofs elaborated side by side each hold a thread with its own stack.
set_option Elab.async false

/-! ### Operand forms -/

theorem withBytePos_of_le {pos : BitVec 5} {s : State} {run : Nat → Result} (h : pos.toNat ≤ 21) :
    withBytePos pos s run = run pos.toNat := by
  simp [withBytePos, bytePos?, show pos.toNat < 22 by omega]

theorem withBytePos_of_lt {pos : BitVec 5} {s : State} {run : Nat → Result} (h : 21 < pos.toNat) :
    withBytePos pos s run = illegalCommand s := by
  simp [withBytePos, bytePos?, show ¬pos.toNat < 22 by omega]

theorem withGridIdx_of_le {i : BitVec 5} {s : State} {run : Nat → Result} (h : i.toNat ≤ 19) :
    withGridIdx i s run = run i.toNat := by
  simp [withGridIdx, gridIdx?, show i.toNat < 20 by omega]

theorem withGridIdx_of_lt {i : BitVec 5} {s : State} {run : Nat → Result} (h : 19 < i.toNat) :
    withGridIdx i s run = illegalCommand s := by
  simp [withGridIdx, gridIdx?, show ¬i.toNat < 20 by omega]

/-! ### Answers -/

@[simp] theorem respondOk_eq (s : State) (v : Value) : respondOk s v = .next (s.respond .ok v) := rfl

@[simp] theorem illegalCommand_eq (s : State) : illegalCommand s = .next (s.respond .illegalCommand 0) := rfl

@[simp] theorem takeFault_payloadTooLarge (s : State) :
    takeFault s .payloadTooLarge = .next ((s.withStat (s.stat.withPtl true)).respond .payloadTooLarge 0) := rfl

@[simp] theorem takeFault_doubleBitErrorRejected (s : State) (ch : Nat) (v : Verdict) (count : Nat) :
    takeFault s (.doubleBitErrorRejected ch v count) =
      .next ((s.withStat ((s.stat.withVerdict ch v).withCorr count)).respond .doubleBitErrorRejected
        (BitVec.ofNat 20 ch)) := rfl

/-! ### The next input -/

theorem takeEvent_nil {s : State} (h : s.pending = []) : s.takeEvent = none := by simp [State.takeEvent, h]

theorem takeEvent_command {s : State} {w : Word} {d : Draw} {rest : List Event} (h : s.pending = .command w d :: rest) :
    s.takeEvent = some (.command w d, { s with pending := rest, draw := d }) := by
  simp [State.takeEvent, h]

theorem takeEvent_reset {s : State} {rest : List Event} (h : s.pending = .reset :: rest) :
    s.takeEvent = some (.reset, { s with pending := rest }) := by
  simp [State.takeEvent, h]

/-! ### Operations of the pipelines -/

theorem buildOp_eq_some {s : State} {m : Message} (h : buildMessage s.pay s.plen.toNat s.draw = some m) :
    buildOp s = some ((s.withMsg m).withStat (s.stat.withPtl false)) := by
  simp [buildOp, h]

theorem buildOp_eq_none {s : State} (h : buildMessage s.pay s.plen.toNat s.draw = none) : buildOp s = none := by
  simp [buildOp, h]

end Sys2Proof.Machine
end

