-- ==== Sys2Proof/Laws/Packing.lean ====
section
/-!
SUPPORT. What each function of the bitpacker gives, one bit or one byte at a time.
-/

namespace Sys2Proof.Machine

-- One theorem after another: proofs elaborated side by side each hold a thread with its own stack.
set_option Elab.async false

/-! ### Bytes as bits -/

@[simp] theorem length_packByte (v : Byte) : (packByte v).length = 8 := by simp [packByte]

theorem getD_packByte (v : Byte) {j : Nat} (h : j < 8) : (packByte v).getD j false = v.getLsbD (7 - j) := by
  rw [packByte, getD_map_range, if_pos h]

@[simp] theorem pack_nil : pack [] = [] := rfl

@[simp] theorem pack_cons (v : Byte) (bytes : List Byte) : pack (v :: bytes) = packByte v ++ pack bytes := by
  simp [pack]

@[simp] theorem length_pack (bytes : List Byte) : (pack bytes).length = 8 * bytes.length := by
  induction bytes with
  | nil => rfl
  | cons v bytes ih => simp [ih]; omega

theorem getD_pack (bytes : List Byte) (k : Nat) {j : Nat} (h : j < 8) :
    (pack bytes).getD (8 * k + j) false = (bytes.getD k 0).getLsbD (7 - j) := by
  induction bytes generalizing k with
  | nil => simp
  | cons v bytes ih =>
    cases k with
    | zero =>
      have := getD_packByte v h
      rw [pack_cons, List.getD_append _ _ _ _ (by simp; omega)]
      simpa using this
    | succ k =>
      rw [pack_cons, List.getD_append_right _ _ _ _ (by simp; omega)]
      have e : 8 * (k + 1) + j - (packByte v).length = 8 * k + j := by simp; omega
      rw [e, ih]; simp

theorem getLsbD_byteOf (f : Nat → Bool) (i : Nat) : (byteOf f).getLsbD i = (decide (i < 8) && f (7 - i)) := by
  simp [byteOf]

theorem byteOf_congr {f g : Nat → Bool} (h : ∀ j, j < 8 → f j = g j) : byteOf f = byteOf g :=
  ofBits_congr fun i hi => h (7 - i) (by omega)

@[simp] theorem length_unpack (bits : List Bool) : (unpack bits).length = (bits.length + 7) / 8 := by simp [unpack]

theorem getD_unpack (bits : List Bool) {k : Nat} (d : Byte) (h : k < (bits.length + 7) / 8) :
    (unpack bits).getD k d = byteOf fun j => bits.getD (8 * k + j) false := by
  rw [unpack, getD_map_range, if_pos h]

/-! ### The message as chunks -/

@[simp] theorem getLsbD_chunkOf (m : Message) (i j : Nat) :
    (chunkOf m i).getLsbD j = (decide (j < 11) && m.getLsbD (11 * i + j)) := by
  simp [chunkOf]

theorem readAt_split (m : Message) {i : Nat} (h : i < 16) : readAt (split m) i = chunkOf m i := readAt_tabulate _ h

theorem getLsbD_join (d : Vector Chunk 16) {k : Nat} (h : k < 176) :
    (join d).getLsbD k = (readAt d (k / 11)).getLsbD (k % 11) := by
  simp [join, h]

theorem getLsbD_writeChunk (m : Message) (i : Nat) (d : Chunk) {k : Nat} (h : k < 176) :
    (writeChunk m i d).getLsbD k = if k / 11 = i then d.getLsbD (k % 11) else m.getLsbD k := by
  simp [writeChunk, h]

/-! ### The message as bytes -/

theorem getLsbD_msgByte (m : Message) (k : Nat) {j : Nat} (h : j < 8) :
    (msgByte m k).getLsbD (7 - j) = m.getLsbD (8 * k + j) := by
  rw [msgByte, getLsbD_byteOf]
  have e : 7 - (7 - j) = j := by omega
  simp [e]; omega

theorem getLsbD_writeMsgByte (m : Message) (k : Nat) (v : Byte) {i : Nat} (h : i < 176) :
    (writeMsgByte m k v).getLsbD i = if i / 8 = k then v.getLsbD (7 - i % 8) else m.getLsbD i := by
  simp [writeMsgByte, h]

@[simp] theorem length_messageBytes (m : Message) : (messageBytes m).length = 22 := by simp [messageBytes]

theorem getD_messageBytes (m : Message) {k : Nat} (d : Byte) (h : k < 22) : (messageBytes m).getD k d = msgByte m k := by
  rw [messageBytes, getD_unpack _ _ (by simpa using h)]
  simp only [getD_bitsOf]; rfl

/-! ### Message assembly -/

theorem buildMessage_eq_none {payload : Payload} {n : Nat} {rnd : Draw} (h : 21 < n) :
    buildMessage payload n rnd = none := by
  simp [buildMessage, h]

theorem buildMessage_eq_some (payload : Payload) {n : Nat} (rnd : Draw) (h : n ≤ 21) :
    ∃ m, buildMessage payload n rnd = some m ∧ ∀ k, k < 176 → m.getLsbD k =
      if k < 8 * n then (readAt payload (k / 8)).getLsbD (7 - k % 8)
      else if k < 8 * n + 8 then false
      else rnd.getLsbD (k - (8 * n + 8)) := by
  refine ⟨_, by rw [buildMessage, if_neg (by simpa using h)], fun k hk => ?_⟩
  have hlen : (payload.toList.take n ++ [Config.terminator]).length = n + 1 := by simp; omega
  rw [getLsbD_ofSeq]
  simp only [hk, decide_true, Bool.true_and]
  by_cases h1 : k < 8 * n + 8
  · rw [List.getD_append _ _ _ _ (by rw [length_pack, hlen]; omega)]
    have e : k = 8 * (k / 8) + k % 8 := by omega
    rw [if_pos h1, e, getD_pack _ _ (Nat.mod_lt _ (by decide)), ← e]
    by_cases h2 : k < 8 * n
    · rw [if_pos h2, List.getD_append _ _ _ _ (by simp; omega)]
      have e2 : (payload.toList.take n).getD (k / 8) 0 = readAt payload (k / 8) := by
        rw [← getD_toList]
        simp [List.getD, show k / 8 < n by omega]
      rw [e2]
    · rw [if_neg h2, List.getD_append_right _ _ _ _ (by simp; omega)]
      have e2 : k / 8 - (payload.toList.take n).length = 0 := by simp; omega
      rw [e2]; simp
  · rw [List.getD_append_right _ _ _ _ (by rw [length_pack, hlen]; omega), length_pack, hlen, getD_map_range,
      if_pos (by simp [fillerCount]; omega), if_neg (by omega), if_neg h1,
      show 8 * (n + 1) = 8 * n + 8 by omega]

/-! ### The terminator scan -/

theorem termScan_le (bytes : List Byte) : termScan bytes ≤ bytes.length := List.findIdx_le_length

theorem termScan_before {bytes : List Byte} {k : Nat} (h : k < termScan bytes) : bytes.getD k 0 ≠ 0 := by
  have hk : k < bytes.length := Nat.lt_of_lt_of_le h (termScan_le bytes)
  have := List.not_of_lt_findIdx (p := (· == Config.terminator)) h
  simpa [List.getD, hk] using this

theorem termScan_at {bytes : List Byte} (h : termScan bytes < bytes.length) : bytes.getD (termScan bytes) 0 = 0 := by
  have := List.findIdx_getElem (p := (· == Config.terminator)) (w := h)
  rw [List.getD, List.getElem?_eq_getElem h]
  exact eq_of_beq this

/-- The scan is the first zero byte, where there is one. -/
theorem termScan_eq {bytes : List Byte} {n : Nat} (hn : n < bytes.length) (h0 : bytes.getD n 0 = 0)
    (hb : ∀ k, k < n → bytes.getD k 0 ≠ 0) : termScan bytes = n := by
  rcases Nat.lt_trichotomy (termScan bytes) n with h | h | h
  · exact absurd (termScan_at (by omega)) (hb _ h)
  · exact h
  · exact absurd h0 (termScan_before h)

end Sys2Proof.Machine
end

