-- ==== Sys2Proof/Laws/PerInstr.lean ====
section
/-!
SUPPORT. The family EncodeFields, one lemma per instruction: the fields of a command's word are its opcode, its index
and its immediate, and the reserved bit is 0 (spec/30_encoding.md R40, R49).
-/

namespace Sys2Proof.Laws

-- One theorem after another: proofs elaborated side by side each hold a thread with its own stack.
set_option Elab.async false

/-! ### The fields of a word put together (R40) -/

theorem opField_commandWord (op : BitVec 6) (idx : BitVec 5) (imm : BitVec 20) :
    opField (commandWord op idx imm) = op := by
  apply BitVec.eq_of_getLsbD_eq
  intro i hi
  simp only [opField, commandWord, BitVec.getLsbD_extractLsb', BitVec.getLsbD_append, hi, decide_true, Bool.true_and,
    if_neg (show ¬26 + i < 20 by omega), if_neg (show ¬26 + i - 20 < 1 by omega),
    if_neg (show ¬26 + i - 20 - 1 < 5 by omega)]
  congr 1; omega

theorem idxField_commandWord (op : BitVec 6) (idx : BitVec 5) (imm : BitVec 20) :
    idxField (commandWord op idx imm) = idx := by
  apply BitVec.eq_of_getLsbD_eq
  intro i hi
  simp only [idxField, commandWord, BitVec.getLsbD_extractLsb', BitVec.getLsbD_append, hi, decide_true, Bool.true_and,
    if_neg (show ¬21 + i < 20 by omega), if_neg (show ¬21 + i - 20 < 1 by omega),
    if_pos (show 21 + i - 20 - 1 < 5 by omega)]
  congr 1; omega

theorem zField_commandWord (op : BitVec 6) (idx : BitVec 5) (imm : BitVec 20) :
    zField (commandWord op idx imm) = false := by
  simp only [zField, commandWord, BitVec.getLsbD_append]; simp

theorem immField_commandWord (op : BitVec 6) (idx : BitVec 5) (imm : BitVec 20) :
    immField (commandWord op idx imm) = imm := by
  apply BitVec.eq_of_getLsbD_eq
  intro i hi
  simp only [immField, commandWord, BitVec.getLsbD_extractLsb', BitVec.getLsbD_append, hi, decide_true, Bool.true_and,
    Nat.zero_add, if_true]

/-! ### Operands inside their field (R41) -/

theorem extractLsb'_setWidth_low {n m : Nat} (x : BitVec n) (h : n ≤ m) : (x.setWidth m).extractLsb' 0 n = x := by
  apply BitVec.eq_of_getLsbD_eq
  intro i hi
  simp [hi, show i < m by omega]

theorem extractLsb'_setWidth_high {n m k : Nat} (x : BitVec n) : (x.setWidth m).extractLsb' n k = 0 := by
  apply BitVec.eq_of_getLsbD_eq
  intro i _
  simp

/-- A word is put together from its fields when its reserved bit is 0 (R40). -/
theorem commandWord_fields {w : Word} (h : zField w = false) : commandWord (opField w) (idxField w) (immField w) = w := by
  apply BitVec.eq_of_getLsbD_eq
  intro i hi
  simp only [commandWord, opField, idxField, immField, BitVec.getLsbD_append, BitVec.getLsbD_extractLsb']
  by_cases h1 : i < 20
  · simp [h1]
  · by_cases h2 : i = 20
    · subst h2; simpa [zField] using h.symm
    · by_cases h3 : i < 26
      · rw [if_neg h1, if_neg (by omega), if_pos (by omega)]
        simp [show i - 20 - 1 < 5 by omega, show 21 + (i - 20 - 1) = i by omega]
      · rw [if_neg h1, if_neg (by omega), if_neg (by omega)]
        simp [show i - 20 - 1 - 5 < 6 by omega, show 26 + (i - 20 - 1 - 5) = i by omega]

namespace EncodeFields

/-- The word of `i` has the opcode, index and immediate of `i`, and its reserved bit is 0. -/
def Statement (i : Instr) : Prop :=
  opField (encode i) = i.opcode ∧ idxField (encode i) = i.idx ∧ zField (encode i) = false ∧ immField (encode i) = i.imm

theorem of_instr (i : Instr) : Statement i :=
  ⟨opField_commandWord .., idxField_commandWord .., zField_commandWord .., immField_commandWord ..⟩

theorem nop : Statement (.nop) := of_instr _
theorem rst : Statement (.rst) := of_instr _
theorem wrpay (pos : BitVec 5) (v : Byte) : Statement (.wrpay pos v) := of_instr _
theorem rdpay (pos : BitVec 5) : Statement (.rdpay pos) := of_instr _
theorem wrlen (n : BitVec 5) : Statement (.wrlen n) := of_instr _
theorem rdlen : Statement (.rdlen) := of_instr _
theorem wrmsg (pos : BitVec 5) (v : Byte) : Statement (.wrmsg pos v) := of_instr _
theorem rdmsg (pos : BitVec 5) : Statement (.rdmsg pos) := of_instr _
theorem wrcw (ch : BitVec 4) (v : Codeword) : Statement (.wrcw ch v) := of_instr _
theorem rdcw (ch : BitVec 4) : Statement (.rdcw ch) := of_instr _
theorem wrrow (row : BitVec 5) (v : GridRow) : Statement (.wrrow row v) := of_instr _
theorem rdrow (row : BitVec 5) : Statement (.rdrow row) := of_instr _
theorem rdstat : Statement (.rdstat) := of_instr _
theorem build : Statement (.build) := of_instr _
theorem unpk : Statement (.unpk) := of_instr _
theorem henc (ch : BitVec 4) : Statement (.henc ch) := of_instr _
theorem henca : Statement (.henca) := of_instr _
theorem henci (v : Chunk) : Statement (.henci v) := of_instr _
theorem hdec (ch : BitVec 4) : Statement (.hdec ch) := of_instr _
theorem hdeca : Statement (.hdeca) := of_instr _
theorem hdeci (v : Codeword) : Statement (.hdeci v) := of_instr _
theorem place : Statement (.place) := of_instr _
theorem extr : Statement (.extr) := of_instr _
theorem ovl : Statement (.ovl) := of_instr _
theorem tog (row col : BitVec 5) : Statement (.tog row col) := of_instr _
theorem encode : Statement (.encode) := of_instr _
theorem decode : Statement (.decode) := of_instr _

end EncodeFields

end Sys2Proof.Laws
end

