-- ==== Sys2Proof/Laws/Scan.lean ====
section
/-!
SUPPORT. How a scan of sixteen codewords ends: with every chunk's data, or at the lowest-numbered double error.
-/

namespace Sys2Proof.Machine

-- One theorem after another: proofs elaborated side by side each hold a thread with its own stack.
set_option Elab.async false

theorem correctedBefore_succ (cws : Codewords) (n : Nat) :
    correctedBefore cws (n + 1) = correctedBefore cws n + (hdec (readAt cws n)).corrected.toNat := by
  rw [correctedBefore, List.range_succ, List.filter_append, List.length_append, ← correctedBefore]
  cases h : (hdec (readAt cws n)).corrected <;> simp [h]

theorem correctedBefore_le (cws : Codewords) (n : Nat) : correctedBefore cws n ≤ n := by
  simpa [correctedBefore] using List.length_filter_le (fun ch => (hdec (readAt cws ch)).corrected) (List.range n)

/-- The data of the chunks `0..n-1`. -/
def dataBefore (cws : Codewords) (n : Nat) : List Chunk := (List.range n).map fun ch => (hdec (readAt cws ch)).data

theorem dataBefore_succ (cws : Codewords) (n : Nat) :
    dataBefore cws (n + 1) = dataBefore cws n ++ [(hdec (readAt cws n)).data] := by
  simp [dataBefore, List.range_succ]

theorem scanFrom_accepted (cws : Codewords) (k n : Nat)
    (h : ∀ ch, n ≤ ch → ch < n + k → (hdec (readAt cws ch)).doubleError = false) :
    scanFrom cws (correctedBefore cws n) (dataBefore cws n) (List.range' n k) =
      .accepted (correctedBefore cws (n + k)) (dataBefore cws (n + k)) := by
  induction k generalizing n with
  | zero => simp [scanFrom]
  | succ k ih =>
    rw [List.range'_succ, scanFrom]
    simp only [h n (Nat.le_refl n) (by omega)]
    rw [if_neg (by simp), ← correctedBefore_succ, ← dataBefore_succ, ih (n + 1) fun ch h1 h2 => h ch (by omega) (by omega)]
    rw [show n + 1 + k = n + (k + 1) by omega]

theorem scanFrom_rejected (cws : Codewords) (ch k n : Nat) (h1 : n ≤ ch) (h2 : ch < n + k)
    (h : ∀ i, n ≤ i → i < ch → (hdec (readAt cws i)).doubleError = false)
    (hd : (hdec (readAt cws ch)).doubleError = true) :
    scanFrom cws (correctedBefore cws n) (dataBefore cws n) (List.range' n k) =
      .rejected ch (hdec (readAt cws ch)) (correctedBefore cws ch) := by
  induction k generalizing n with
  | zero => omega
  | succ k ih =>
    rw [List.range'_succ, scanFrom]
    rcases Nat.eq_or_lt_of_le h1 with e | e
    · subst e; simp [hd]
    · simp only [h n (Nat.le_refl n) e]
      rw [if_neg (by simp), ← correctedBefore_succ, ← dataBefore_succ]
      exact ih (n + 1) e (by omega) fun i hi1 hi2 => h i (by omega) hi2

theorem scanChunks_accepted {cws : Codewords} (h : NoDoubleError cws) :
    scanChunks cws = .accepted (correctedBefore cws 16) (dataBefore cws 16) := by
  have := scanFrom_accepted cws 16 0 fun ch _ hch => h ch (by omega)
  rwa [← List.range_eq_range'] at this

theorem scanChunks_rejected {cws : Codewords} {ch : Nat} (h : FirstDoubleError cws ch) :
    scanChunks cws = .rejected ch (hdec (readAt cws ch)) (correctedBefore cws ch) := by
  have := scanFrom_rejected cws ch 16 0 (Nat.zero_le ch) (by have := h.1; omega) (fun i _ hi => h.2.2 i hi) h.2.1
  rwa [← List.range_eq_range'] at this

/-- Every set of codewords has no double error or a first one. -/
theorem noDoubleError_or_first (cws : Codewords) : NoDoubleError cws ∨ ∃ ch, FirstDoubleError cws ch := by
  by_cases h : NoDoubleError cws
  · exact .inl h
  · right
    have hex : ∃ ch, ch < 16 ∧ (hdec (readAt cws ch)).doubleError = true := by
      by_contra hn
      apply h
      intro ch hch
      by_contra hd
      exact hn ⟨ch, hch, by simpa using hd⟩
    refine ⟨Nat.find hex, (Nat.find_spec hex).1, (Nat.find_spec hex).2, fun k hk => ?_⟩
    have hm := Nat.find_min hex hk
    have : k < 16 := Nat.lt_trans hk (Nat.find_spec hex).1
    simpa [this] using hm

end Sys2Proof.Machine
end

