-- ==== Sys2Proof/Machine/Assembler.lean ====
section
/-!
DEFINITION. The assembler notation of spec/30_encoding.md R47 and the pseudo-instructions of R48. No step reads them: they
say which commands a line of text stands for. What the rules leave open about white space, blank lines and the case of
hexadecimal digits is a DESIGN CHOICE (notes/assumptions/10.md).
-/

namespace Sys2Proof.Machine

/-! ### Pseudo-instructions (R48) -/

/-- Apply `f` to each value with its position, from position `k` on. -/
def withPositions {α : Type} (f : Nat → α → Instr) (k : Nat) : List α → List Instr
  | [] => []
  | v :: vs => f k v :: withPositions f (k + 1) vs

/-- `LDPAY b0, ..., b(n-1)`: the bytes, then the length. -/
def ldpay (bytes : List Byte) : List Instr :=
  withPositions (fun k v => .wrpay (BitVec.ofNat 5 k) v) 0 bytes ++ [.wrlen (BitVec.ofNat 5 bytes.length)]

/-- `LDMSG b0, ..., b21`. -/
def ldmsg (bytes : List Byte) : List Instr := withPositions (fun k v => .wrmsg (BitVec.ofNat 5 k) v) 0 bytes

/-- `LDGRID v0, ..., v19`. -/
def ldgrid (rows : List GridRow) : List Instr := withPositions (fun r v => .wrrow (BitVec.ofNat 5 r) v) 0 rows

/-- `FLIP ch, b`: toggles the cell that holds bit `b` of chunk `ch`. -/
def flip (ch b : Nat) : List Instr := [.tog (BitVec.ofNat 5 (cellOf b ch).1) (BitVec.ofNat 5 (cellOf b ch).2)]

/-! ### Numbers, operands and lines (R47) -/

/-- The value of a digit, hexadecimal digits in either case. -/
def digitValue (c : Char) : Option Nat :=
  if '0'.toNat ≤ c.toNat ∧ c.toNat ≤ '9'.toNat then some (c.toNat - '0'.toNat)
  else if 'A'.toNat ≤ c.toNat ∧ c.toNat ≤ 'F'.toNat then some (c.toNat - 'A'.toNat + 10)
  else if 'a'.toNat ≤ c.toNat ∧ c.toNat ≤ 'f'.toNat then some (c.toNat - 'a'.toNat + 10)
  else none

/-- The value of digits in a base, after the digits already read. -/
def digitsValue (base acc : Nat) : List Char → Option Nat
  | [] => some acc
  | c :: cs =>
    match digitValue c with
    | some d => if d < base then digitsValue base (base * acc + d) cs else none
    | none => none

/-- A decimal number, or a hexadecimal one after `0x`. -/
def parseNumber : List Char → Option Nat
  | '0' :: 'x' :: c :: cs => digitsValue 16 0 (c :: cs)
  | c :: cs => digitsValue 10 0 (c :: cs)
  | [] => none

/-- A space or a tab. -/
def isBlank (c : Char) : Bool := c == ' ' || c == '\t'

/-- The text without blanks at either end. -/
def trimBlanks (cs : List Char) : List Char := ((cs.dropWhile isBlank).reverse.dropWhile isBlank).reverse

/-- The parts of a text between separators. -/
def splitAtChar (sep : Char) : List Char → List (List Char)
  | [] => [[]]
  | c :: cs =>
    match splitAtChar sep cs with
    | [] => [[c]]
    | w :: ws => if c = sep then [] :: w :: ws else (c :: w) :: ws

/-- All values, when every one is there. -/
def allSome {α : Type} : List (Option α) → Option (List α)
  | [] => some []
  | some v :: rest => (allSome rest).map (v :: ·)
  | none :: _ => none

/-- The comma-separated operands of a line, none for blank text. -/
def parseOperands (cs : List Char) : Option (List Nat) :=
  if trimBlanks cs = [] then some []
  else allSome ((splitAtChar ',' cs).map fun part => parseNumber (trimBlanks part))

/-- A form with no operand. -/
def asmNone (i : Instr) : List Nat → Option (List Instr)
  | [] => some [i]
  | _ => none

/-- A form with one operand below a limit. -/
def asmOne (limit : Nat) (f : Nat → List Instr) : List Nat → Option (List Instr)
  | [a] => if a < limit then some (f a) else none
  | _ => none

/-- A form with two operands, each below a limit. -/
def asmTwo (limitA limitB : Nat) (f : Nat → Nat → List Instr) : List Nat → Option (List Instr)
  | [a, b] => if a < limitA ∧ b < limitB then some (f a b) else none
  | _ => none

/-- A form with a list of operands below a limit, of an allowed length. -/
def asmMany (limit : Nat) (lengthOk : Nat → Bool) (f : List Nat → List Instr) (ops : List Nat) : Option (List Instr) :=
  if lengthOk ops.length && ops.all (fun v => decide (v < limit)) then some (f ops) else none

/-- The forms of R47 without operands. -/
def asmBare : List (String × Instr) := [
  ("NOP", .nop), ("RST", .rst), ("RDLEN", .rdlen), ("RDSTAT", .rdstat), ("BUILD", .build), ("UNPK", .unpk),
  ("HENCA", .henca), ("HDECA", .hdeca), ("PLACE", .place), ("EXTR", .extr), ("OVL", .ovl), ("ENCODE", .encode),
  ("DECODE", .decode)]

/-- The forms of R47 with operands. -/
def asmForms : List (String × (List Nat → Option (List Instr))) := [
  ("WRPAY", asmTwo 22 256 fun i v => [.wrpay (BitVec.ofNat 5 i) (BitVec.ofNat 8 v)]),
  ("WRMSG", asmTwo 22 256 fun i v => [.wrmsg (BitVec.ofNat 5 i) (BitVec.ofNat 8 v)]),
  ("RDPAY", asmOne 22 fun i => [.rdpay (BitVec.ofNat 5 i)]),
  ("RDMSG", asmOne 22 fun i => [.rdmsg (BitVec.ofNat 5 i)]),
  ("WRLEN", asmOne 32 fun n => [.wrlen (BitVec.ofNat 5 n)]),
  ("WRCW", asmTwo 16 65536 fun ch v => [.wrcw (BitVec.ofNat 4 ch) (BitVec.ofNat 16 v)]),
  ("RDCW", asmOne 16 fun ch => [.rdcw (BitVec.ofNat 4 ch)]),
  ("HENC", asmOne 16 fun ch => [.henc (BitVec.ofNat 4 ch)]),
  ("HDEC", asmOne 16 fun ch => [.hdec (BitVec.ofNat 4 ch)]),
  ("WRROW", asmTwo 20 1048576 fun r v => [.wrrow (BitVec.ofNat 5 r) (BitVec.ofNat 20 v)]),
  ("RDROW", asmOne 20 fun r => [.rdrow (BitVec.ofNat 5 r)]),
  ("HENCI", asmOne 2048 fun v => [.henci (BitVec.ofNat 11 v)]),
  ("HDECI", asmOne 65536 fun v => [.hdeci (BitVec.ofNat 16 v)]),
  ("TOG", asmTwo 20 20 fun r c => [.tog (BitVec.ofNat 5 r) (BitVec.ofNat 5 c)])]

/-- The pseudo-instructions of R48. -/
def asmPseudo : List (String × (List Nat → Option (List Instr))) := [
  ("LDPAY", asmMany 256 (fun n => decide (n ≤ 22)) fun bytes => ldpay (bytes.map (BitVec.ofNat 8))),
  ("LDMSG", asmMany 256 (· == 22) fun bytes => ldmsg (bytes.map (BitVec.ofNat 8))),
  ("LDGRID", asmMany 1048576 (· == 20) fun rows => ldgrid (rows.map (BitVec.ofNat 20))),
  ("FLIP", asmTwo 16 16 flip)]

/-- Every form with its mnemonic. -/
def asmTable : List (String × (List Nat → Option (List Instr))) :=
  asmBare.map (fun p => (p.1, asmNone p.2)) ++ asmForms ++ asmPseudo

/-- The commands of a mnemonic with its operands. -/
def assembleForm (mnemonic : String) (operands : List Nat) : Option (List Instr) :=
  match asmTable.find? (fun p => p.1 == mnemonic) with
  | some p => p.2 operands
  | none => none

/-- The commands of one line: text from `;` on is a comment, a blank line has none (R47). -/
def assembleLine (line : List Char) : Option (List Instr) :=
  let text := trimBlanks (line.takeWhile (· != ';'))
  if text = [] then some []
  else
    match parseOperands (text.dropWhile fun c => !isBlank c) with
    | some operands => assembleForm (String.ofList (text.takeWhile fun c => !isBlank c)) operands
    | none => none

/-- The commands of a text, one command a line. -/
def assemble (text : List Char) : Option (List Instr) :=
  (allSome ((splitAtChar '\n' text).map assembleLine)).map List.flatten

end Sys2Proof.Machine
end

