-- ==== Sys2Proof/Tests/Slice0.lean ====
section
/-!
SUPPORT. Tests of one step or one function each, with results from the spec's own vectors (spec/95_test_vectors.md, named in
each comment), and a witness for the hypotheses of each statement.
-/

namespace Sys2Proof.Tests

-- One theorem after another: proofs elaborated side by side each hold a thread with its own stack.
set_option Elab.async false

open Sys2Proof.Machine

/-! ### Helpers -/

/-- The state after the host issues one word. -/
def after (s : State) (w : Word) : Option State :=
  match step (s.issueNext w) with
  | .next t => some t
  | .fault _ => none
  | .refused _ => none

/-- The response word to one word. -/
def answer (s : State) (w : Word) : Option Nat :=
  (after s w).bind fun t => t.responses.head?.map fun r => r.word.toNat

/-- The rows of a grid as numbers. -/
def rows (g : Grid) : List Nat := g.toList.map BitVec.toNat

/-- The codewords as numbers. -/
def words (cws : Codewords) : List Nat := cws.toList.map BitVec.toNat

/-- A message from its 22 bytes. -/
def messageOf (bytes : List Byte) : Message := ofSeq 176 (pack bytes)

/-- The state after reset with `CW` loaded. -/
def withCodewords (f : Nat → Codeword) : State := { State.reset with cw := tabulate 16 f }

/-- The state after reset with "Hi" in `PAY` and a length. -/
def withHi (n : BitVec 5) : State :=
  { State.reset with pay := tabulate 22 fun k => if k = 0 then 0x48 else if k = 1 then 0x69 else 0, plen := n }

/-! ### Well-formedness: each check refuses an ill-formed term (R42) -/

theorem test_wf_wrpay : (Instr.wrpay 22 0).wf = false ∧ (Instr.wrpay 21 0).wf = true := by decide
theorem test_wf_rdpay : (Instr.rdpay 22).wf = false ∧ (Instr.rdpay 21).wf = true := by decide
theorem test_wf_wrmsg : (Instr.wrmsg 31 0).wf = false ∧ (Instr.wrmsg 21 0).wf = true := by decide
theorem test_wf_rdmsg : (Instr.rdmsg 22).wf = false ∧ (Instr.rdmsg 0).wf = true := by decide
theorem test_wf_wrrow : (Instr.wrrow 20 0).wf = false ∧ (Instr.wrrow 19 0).wf = true := by decide
theorem test_wf_rdrow : (Instr.rdrow 20).wf = false ∧ (Instr.rdrow 19).wf = true := by decide
theorem test_wf_tog_row : (Instr.tog 20 4).wf = false ∧ (Instr.tog 19 19).wf = true := by decide
theorem test_wf_tog_col : (Instr.tog 4 20).wf = false ∧ (Instr.tog 0 0).wf = true := by decide

/-! ### Decoding: words written out field by field from R42, `op idx z imm` -/

theorem test_decode_nop : decodeTableWord 32 0b00000000000000000000000000000000 = some .nop := by decide
theorem test_decode_rst : decodeTableWord 32 0b00000100000000000000000000000000 = some .rst := by decide
/-- R47: `WRPAY 1, 0x69`. -/
theorem test_decode_wrpay : decodeTableWord 32 0b00100000001000000000000001101001 = some (.wrpay 1 0x69) := by decide
theorem test_decode_rdpay : decodeTableWord 32 0b00100110101000000000000000000000 = some (.rdpay 21) := by decide
theorem test_decode_wrlen : decodeTableWord 32 0b00101000000000000000000000011111 = some (.wrlen 31) := by decide
theorem test_decode_rdlen : decodeTableWord 32 0b00101100000000000000000000000000 = some .rdlen := by decide
theorem test_decode_wrmsg : decodeTableWord 32 0b00110000010000000000000011110001 = some (.wrmsg 2 0xF1) := by decide
/-- R47: `RDMSG 21`. -/
theorem test_decode_rdmsg : decodeTableWord 32 0b00110110101000000000000000000000 = some (.rdmsg 21) := by decide
/-- R47: `WRCW 5, 0x0204`. -/
theorem test_decode_wrcw : decodeTableWord 32 0b00111000101000000000001000000100 = some (.wrcw 5 0x0204) := by decide
theorem test_decode_rdcw : decodeTableWord 32 0b00111101111000000000000000000000 = some (.rdcw 15) := by decide
/-- R47: `WRROW 4, 0x00115`. -/
theorem test_decode_wrrow : decodeTableWord 32 0b01000000100000000000000100010101 = some (.wrrow 4 0x115) := by decide
/-- R47: `RDROW 13`. -/
theorem test_decode_rdrow : decodeTableWord 32 0b01000101101000000000000000000000 = some (.rdrow 13) := by decide
theorem test_decode_rdstat : decodeTableWord 32 0b01001000000000000000000000000000 = some .rdstat := by decide
theorem test_decode_build : decodeTableWord 32 0b01100000000000000000000000000000 = some .build := by decide
theorem test_decode_unpk : decodeTableWord 32 0b01100100000000000000000000000000 = some .unpk := by decide
theorem test_decode_henc : decodeTableWord 32 0b10000000010000000000000000000000 = some (.henc 2) := by decide
theorem test_decode_henca : decodeTableWord 32 0b10000100000000000000000000000000 = some .henca := by decide
/-- R47: `HENCI 0x612`. -/
theorem test_decode_henci : decodeTableWord 32 0b10001000000000000000011000010010 = some (.henci 0x612) := by decide
/-- R47: `HDEC 5`. -/
theorem test_decode_hdec : decodeTableWord 32 0b10100000101000000000000000000000 = some (.hdec 5) := by decide
theorem test_decode_hdeca : decodeTableWord 32 0b10100100000000000000000000000000 = some .hdeca := by decide
/-- R47: `HDECI 0xC333`. -/
theorem test_decode_hdeci : decodeTableWord 32 0b10101000000000001100001100110011 = some (.hdeci 0xC333) := by decide
theorem test_decode_place : decodeTableWord 32 0b11000000000000000000000000000000 = some .place := by decide
theorem test_decode_extr : decodeTableWord 32 0b11000100000000000000000000000000 = some .extr := by decide
theorem test_decode_ovl : decodeTableWord 32 0b11010000000000000000000000000000 = some .ovl := by decide
/-- R47: `TOG 13, 9`. -/
theorem test_decode_tog : decodeTableWord 32 0b11010101101000000000000000001001 = some (.tog 13 9) := by decide
theorem test_decode_encode : decodeTableWord 32 0b11100000000000000000000000000000 = some .encode := by decide
theorem test_decode_decode : decodeTableWord 32 0b11100100000000000000000000000000 = some .decode := by decide

/-- Program P7: every one of these words is illegal. -/
theorem test_illegal_words :
    ([0x00100000, 0x40900000, 0x08000000, 0x4C000000, 0x68000000, 0xC8000000, 0xD8000000, 0xE8000000, 0xFC000000,
      0x00000001, 0x04200000, 0xE0000001, 0x22C00000, 0x20000100, 0x28000020, 0x3E000000, 0x46800000, 0xD6800004,
      0xD4800014, 0xD4800020, 0x88000800, 0xA8010000].all fun w => decodeTableWord 32 w == none) = true := by decide

/-- P7: an illegal word answers 0xC0000000. -/
theorem test_illegal_answer : answer State.reset 0x22C00000 = some 0xC0000000 := by decide

/-! ### Control and register access -/

/-- R60. -/
theorem test_nop : answer State.reset 0x00000000 = some 0 := by decide
/-- R61. -/
theorem test_rst : ((after (withHi 2) 0x04000000).map fun t => (t.plen, readAt t.pay 0)) = some (0, 0) := by decide
/-- R62: `WRPAY 0, 0x48`. -/
theorem test_wrpay : ((after State.reset 0x20000048).map fun t => (readAt t.pay 0, readAt t.pay 1)) = some (0x48, 0) := by
  decide
/-- P2 step 6. -/
theorem test_rdpay : answer (withHi 2) 0x24200000 = some 0x69 := by decide
/-- R64: `WRLEN 22` is legal. -/
theorem test_wrlen : ((after State.reset 0x28000016).map fun t => t.plen) = some 22 := by decide
theorem test_rdlen : answer (withHi 2) 0x2C000000 = some 2 := by decide
/-- R66: `WRMSG 0, 0x48` sets `MSG[0..7] = 0,1,0,0,1,0,0,0`. -/
theorem test_wrmsg : ((after State.reset 0x30000048).map fun t => (bitsOf t.msg).take 9) =
    some [false, true, false, false, true, false, false, false, false] := by decide +kernel
/-- P4 step 5. -/
theorem test_rdmsg : answer { State.reset with msg := messageOf [0x48, 0x69, 0, 0xFF] } 0x34600000 = some 0xFF := by
  decide +kernel
/-- R68: `WRCW 5, 0x0204`. -/
theorem test_wrcw : ((after State.reset 0x38A00204).map fun t => (readAt t.cw 5, readAt t.cw 4)) = some (0x0204, 0) := by
  decide
/-- P2 step 7. -/
theorem test_rdcw : answer (withCodewords fun ch => if ch = 5 then 0x0200 else 0) 0x3CA00000 = some 0x0200 := by decide
/-- P8 steps 2 and 3: the row as given. -/
theorem test_wrrow : ((after State.reset 0x402FFFFF).map fun t => (readAt t.grid 1, readAt t.grid 0)) =
    some (0xFFFFF, 0xFFFFF) := by decide +kernel
/-- R71: after reset `RDROW 2` answers 0xFFFFD. -/
theorem test_rdrow : answer State.reset 0x44400000 = some 0xFFFFD := by decide +kernel
/-- P3 step 5: DBE 1, SYN 11, ECH 5. -/
theorem test_rdstat : answer { State.reset with stat := ⟨false, true, false, false, 11, 5, 0⟩ } 0x48000000 =
    some 0x005B2 := by decide
/-- V-PIPE-9: the last chunk examined 15, SYN 15, OVR 1, COR 1, CORR 16. -/
theorem test_rdstat_corr : statWord ⟨false, false, true, true, 15, 15, 16⟩ = 0x10FFC := by decide

/-! ### Bitpacker -/

/-- V-PACK-1 and V-PACK-4. -/
theorem test_pack : pack [0xA5, 0x01] = [true, false, true, false, false, true, false, true,
    false, false, false, false, false, false, false, true] := by decide
theorem test_unpack_pads : unpack [true, false, true, false, false, true, false, true, true, true, true] = [0xA5, 0xE0] := by
  decide
/-- V-MSG-6: the first drawn bit is the most significant bit of byte 3. -/
theorem test_build : (after { withHi 2 with draw := 0x5555555555555555555555555555555555555555 } 0x60000000).map
    (fun t => ((messageBytes t.msg).take 5, t.responses.map fun r => r.word.toNat)) =
    some ([0x48, 0x69, 0x00, 0xAA, 0xAA], [152]) := by decide +kernel
/-- P5 steps 32 and 33. -/
theorem test_build_too_large : (after (withHi 22) 0x60000000).map
    (fun t => (t.stat.ptl, t.responses.map fun r => r.word.toNat)) = some (true, [0x40000000]) := by decide
/-- R90. -/
theorem test_unpk : (after { State.reset with msg := messageOf [0x48, 0x69, 0, 0xFF] } 0x64000000).map
    (fun t => (t.plen, readAt t.pay 1, readAt t.pay 3)) = some (2, 0x69, 0xFF) := by decide +kernel
/-- V-TERM-3: no zero byte. -/
theorem test_term_scan_none : termScan (List.replicate 22 0x41) = 22 := by decide
/-- V-SPLIT-1. -/
theorem test_split : ((split (messageOf [0x48, 0x69])).toList.map BitVec.toNat).take 3 = [0x612, 0x012, 0] := by
  decide +kernel

/-! ### Encoder -/

/-- R103. -/
theorem test_henc : answer { State.reset with msg := messageOf [0x48, 0x69] } 0x80000000 = some 0x0C333 := by decide +kernel
/-- V-PIPE-1. -/
theorem test_henca : (after { State.reset with msg := messageOf [0x48, 0x69] } 0x84000000).map (fun t => (words t.cw).take 3) =
    some [0xC333, 0x0330, 0] := by decide +kernel
/-- V-ENC-8 and V-ENC-2. -/
theorem test_henci : answer State.reset 0x880002C5 = some 0x05959 ∧ answer State.reset 0x880007FF = some 0x0FFFF := by
  decide +kernel

/-! ### Decoder -/

/-- V-DEC-6, first half. -/
theorem test_hdec : (after { withCodewords (fun ch => if ch = 5 then 0x0200 else 0) with msg := BitVec.allOnes 176 }
    0xA0A00000).map (fun t => (chunkOf t.msg 5, chunkOf t.msg 4, statWord t.stat, t.responses.map fun r => r.word.toNat)) =
    some (0, 0x7FF, 0x0059C, [0x66800]) := by decide +kernel
/-- V-DEC-6, second half. -/
theorem test_hdec_double : (after { withCodewords (fun ch => if ch = 5 then 0x0204 else 0) with msg := BitVec.allOnes 176 }
    0xA0A00000).map (fun t => (chunkOf t.msg 5, statWord t.stat, t.responses.map fun r => r.word.toNat)) =
    some (0x7FF, 0x005B2, [0x2D010]) := by decide +kernel
/-- R121, first worked example. -/
theorem test_hdeca : (after (withCodewords fun ch => if ch = 0 then 0xC333 else if ch = 1 then 0x0330 else
    if ch = 5 then 0x0200 else 0) 0xA4000000).map
    (fun t => ((messageBytes t.msg).take 3, statWord t.stat, t.responses.map fun r => r.word.toNat)) =
    some ([0x48, 0x69, 0], 0x01F00, [1]) := by decide +kernel
/-- R121, second worked example. -/
theorem test_hdeca_rejects : (after (withCodewords fun ch => if ch = 0 then 0xC333 else if ch = 1 then 0x0330 else
    if ch = 5 then 0x0204 else 0) 0xA4000000).map
    (fun t => (t.msg, statWord t.stat, t.responses.map fun r => r.word.toNat)) =
    some (0, 0x005B2, [0x80000005]) := by decide +kernel
/-- V-DEC-1 to V-DEC-4. -/
theorem test_hdeci : ([0xFFFF, 0x5959, 0x5958, 0x5951, 0x8000, 0x7FFF, 0x5971, 0x59D8, 0x0003, 0x5957, 0x595E, 0x594F].map
    fun v => (verdictWord (hdec v)).toNat) =
    [0x407FF, 0x402C5, 0x42AC5, 0x4EAC5, 0x7E800, 0x7EFFF, 0x192C6, 0x1D2CD, 0x05000, 0x42AC4, 0x4EAC4, 0x5EACD] := by
  decide +kernel
theorem test_hdeci_answer : answer State.reset 0xA8005951 = some 0x4EAC5 := by decide +kernel

/-! ### Mapper and grid -/

/-- V-MAP-1. -/
theorem test_cell_of : [cellOf 0 0, cellOf 1 0, cellOf 0 1, cellOf 9 5, cellOf 2 5, cellOf 12 3, cellOf 3 12, cellOf 15 15] =
    [(4, 4), (4, 8), (4, 5), (13, 9), (5, 13), (16, 7), (7, 16), (19, 19)] := by decide
/-- V-MAP-2. -/
theorem test_bit_of : [bitOf 4 7, bitOf 7 4, bitOf 8 4, bitOf 12 9, bitOf 19 19] =
    [(0, 3), (0, 12), (4, 0), (9, 1), (15, 15)] := by decide
/-- V-MAP-3. -/
theorem test_place : (after (withCodewords fun ch => if ch = 0 then 0xC333 else 0) 0xC0000000).map (fun t => rows t.grid) =
    some ([0xFFFFF, 0x80009, 0xFFFFD, 0x00007, 0x00115, 5, 5, 5, 0x00115, 5, 5, 5, 0x00115, 5, 5, 5, 0x11005, 5, 5, 7]) := by
  decide +kernel
/-- V-MAP-6. -/
theorem test_extr : (after { State.reset with grid := writeAt freshGrid 4 0xFFFFF } 0xC4000000).map (fun t => words t.cw) =
    some (List.replicate 4 0x000F ++ List.replicate 12 0) := by decide +kernel
/-- V-OVL-1. -/
theorem test_fresh_grid : rows freshGrid = [0xFFFFF, 0x80009, 0xFFFFD, 0x00007] ++ List.replicate 15 5 ++ [7] := by
  decide +kernel
/-- V-OVL-4. -/
theorem test_ovl : (after { State.reset with grid := tabulate 20 fun _ => 0xFFFFF } 0xD0000000).map (fun t => rows t.grid) =
    some ([0xFFFFF, 0x80009, 0xFFFFD, 0x00007] ++ List.replicate 15 0xFFFF5 ++ [0xFFFF7]) := by decide +kernel
/-- V-TOG-1. -/
theorem test_tog : (after State.reset 0xD5A00009).map
    (fun t => (readAt t.grid 13, t.responses.map fun r => r.word.toNat)) = some (0x00205, [1]) := by decide +kernel
/-- P8 steps 5 and 8: a finder cell is left alone and the overlay is not applied. -/
theorem test_tog_finder : (after { State.reset with grid := tabulate 20 fun _ => 0 } 0xD4400009).map
    (fun t => (rows t.grid, t.responses.map fun r => r.word.toNat)) = some (List.replicate 20 0, [0]) := by decide +kernel

/-! ### Pipelines -/

/-- V-PIPE-1. -/
theorem test_encode : (after (withHi 2) 0xE0000000).map
    (fun t => ((words t.cw).take 3, (rows t.grid).drop 3, t.responses.map fun r => r.word.toNat)) =
    some ([0xC333, 0x0330, 0], [7, 0x00115, 5, 5, 5, 0x00335, 5, 5, 5, 0x00335, 5, 5, 5, 0x11005, 5, 5, 7], [152]) := by
  decide +kernel
/-- P2 step 3: the grid of V-PIPE-1 with cell (13, 9) toggled. -/
theorem test_decode_corrects : (after { State.reset with
    grid := tabulate 20 fun r => if r = 4 then 0x00115 else if r = 8 then 0x00335 else if r = 12 then 0x00335 else
      if r = 13 then 0x00205 else if r = 16 then 0x11005 else 5 } 0xE4000000).map
    (fun t => (t.plen, t.pay.toList.take 2, readAt t.cw 5, statWord t.stat, t.responses.map fun r => r.word.toNat)) =
    some (2, [0x48, 0x69], 0x0200, 0x01F00, [0x00022]) := by decide +kernel
/-- P3 step 4: cells (13, 9) and (5, 13) toggled; `PLEN` keeps its value. -/
theorem test_decode_rejects : (after { withHi 7 with
    grid := tabulate 20 fun r => if r = 4 then 0x00115 else if r = 5 then 0x02005 else if r = 8 then 0x00335 else
      if r = 12 then 0x00335 else if r = 13 then 0x00205 else if r = 16 then 0x11005 else 5 } 0xE4000000).map
    (fun t => (t.plen, readAt t.cw 5, statWord t.stat, t.responses.map fun r => r.word.toNat)) =
    some (7, 0x0204, 0x005B2, [0x80000005]) := by decide +kernel

/-! ### Notation -/

/-- R47, R48: `FLIP 5, 9` is `TOG 13, 9`. -/
theorem test_assemble : assemble "LDPAY 0x48, 105 ; the text Hi\nENCODE\n\nFLIP 5, 9".toList =
    some [.wrpay 0 0x48, .wrpay 1 0x69, .wrlen 2, .encode, .tog 13 9] := by decide +kernel
theorem test_assemble_refuses : assembleLine "TOG 20, 4".toList = none := by decide +kernel

/-! ### Witnesses: for each statement with hypotheses, a state and operands that meet them -/

/-- A state with one command waiting. -/
def waiting (w : Word) : State := { State.reset with pending := [.command w 0] }

/-- One cell of the encoded "Hi" flipped, for the statements about hit grids. -/
def hitGrid (g : Grid) (r c : Nat) : Grid := setCell g r c (!gridCell g r c)

theorem test_wit_DecodeOfEncode : (Instr.tog 19 19).wf = true ∧ (Instr.wrpay 21 255).wf = true := by decide
theorem test_wit_EncodeOfDecode : decode 0xD6600013 = .ok (.tog 19 19) := by rfl
theorem test_wit_DecodeFollowsMatchAndMask : ∃ row ∈ opcodeTable, rowAccepts row 0xD6600013 = true := by decide
theorem test_wit_DecodeFollowsMatchAndMask_overlap :
    ∃ row ∈ opcodeTable, (0xD6600013 : Word) &&& row.mask = row.matchBits := by decide
theorem test_wit_IllegalWordsAnswerIllegalCommand :
    (waiting 0xD4800014).pending = .command 0xD4800014 0 :: [] ∧ ∀ i, decode 0xD4800014 ≠ .ok i :=
  ⟨rfl, fun i h => by have e : decode 0xD4800014 = .error .valueCheck := rfl; rw [e] at h; cases h⟩
theorem test_illegal_cases : decode 0x00100000 = .error .reservedBit ∧ decode 0x08000000 = .error .reservedOpcode
    ∧ decode 0xD4800020 = .error .maskedBit ∧ decode 0xD4800014 = .error .valueCheck := ⟨rfl, rfl, rfl, rfl⟩
theorem test_wit_StepRunsDecodedCommand :
    (waiting 0xE4000000).pending = .command 0xE4000000 0 :: [] ∧ decode 0xE4000000 = .ok .decode := ⟨rfl, rfl⟩
theorem test_wit_StepWithoutCommand :
    State.reset.pending = [] ∧ { State.reset with pending := [.reset] }.pending = .reset :: [] := ⟨rfl, rfl⟩
theorem test_wit_EveryCommandAnswersOnce : (waiting 0x00100000).pending = .command 0x00100000 0 :: [] := rfl
theorem test_wit_FinderKeptByEveryOtherStep : FinderIntact (waiting 0xD0000000).grid
    ∧ (∀ w d rest row v, (waiting 0xD0000000).pending = .command w d :: rest → decode w ≠ .ok (.wrrow row v))
    ∧ ∃ t, step (waiting 0xD0000000) = .next t :=
  ⟨by decide +kernel, fun _ _ _ _ _ h h2 => by
    cases h
    have e : decode 0xD0000000 = .ok .ovl := rfl
    exact (nomatch e.symm.trans h2), ⟨_, rfl⟩⟩
theorem test_wit_FinderRestored : State.reset.plen.toNat ≤ 21 ∧ (21#5).toNat ≤ 21
    ∧ (4 ≤ (4#5).toNat ∧ (4#5).toNat < 20) ∧ (4 ≤ (19#5).toNat ∧ (19#5).toNat < 20) := by decide
theorem test_wit_CorrStaysAtMostSixteen :
    CorrBounded { waiting 0xA4000000 with stat := ⟨false, false, false, false, 0, 0, 16⟩ }
    ∧ ∃ t, step { waiting 0xA4000000 with stat := ⟨false, false, false, false, 0, 0, 16⟩ } = .next t :=
  ⟨by decide, _, rfl⟩
theorem test_wit_StatFieldsHaveOnlyTheirWriters :
    (∃ t, exec .encode (withHi 22) = .next t ∧ t.stat.ptl ≠ (withHi 22).stat.ptl)
    ∧ (∃ t, exec (.hdec 0) (withCodewords fun _ => 3) = .next t ∧ ¬SameVerdictFields t.stat State.reset.stat)
    ∧ (∃ t, exec .hdeca (withCodewords fun _ => 1) = .next t ∧ t.stat.corr ≠ State.reset.stat.corr)
    ∧ ((Instr.wrpay 22 0).wf = false ∧ ∃ t, exec (.wrpay 22 0) State.reset = .next t) :=
  ⟨⟨_, rfl, by decide⟩, ⟨_, rfl, fun h => absurd h.1 (by decide)⟩, ⟨_, rfl, by decide +kernel⟩, by decide, _, rfl⟩
theorem test_wit_RegistersHaveOnlyTheirWriters :
    (∃ t, exec (.wrpay 0 1) State.reset = .next t ∧ t.pay ≠ State.reset.pay)
    ∧ (∃ t, exec (.wrlen 1) State.reset = .next t ∧ t.plen ≠ State.reset.plen)
    ∧ (∃ t, exec (.wrmsg 0 1) State.reset = .next t ∧ t.msg ≠ State.reset.msg)
    ∧ (∃ t, exec (.wrcw 0 1) State.reset = .next t ∧ t.cw ≠ State.reset.cw)
    ∧ (∃ t, exec (.wrrow 0 0) State.reset = .next t ∧ t.grid ≠ State.reset.grid) :=
  ⟨⟨_, rfl, by decide⟩, ⟨_, rfl, by decide⟩, ⟨_, rfl, by decide +kernel⟩, ⟨_, rfl, by decide⟩,
    ⟨_, rfl, by decide +kernel⟩⟩
theorem test_wit_ReadsHaveNoSideEffect : (∃ r, Instr.rdrow 19 = .rdrow r) ∧ (∃ v, Instr.hdeci 1 = .hdeci v)
    ∧ (21#5).toNat ≤ 21 ∧ (19#5).toNat ≤ 19 := ⟨⟨19, rfl⟩, ⟨1, rfl⟩, by decide⟩
/-- Also for `MessageBytesMove`: the last legal and the first illegal byte position. -/
theorem test_wit_PayloadBytesMove : (21#5).toNat ≤ 21 ∧ 21 < (22#5).toNat := by decide
theorem test_wit_GridRowsMove : (19#5).toNat ≤ 19 ∧ 19 < (20#5).toNat := by decide
theorem test_wit_LegalExactly : opField 0x20000000 = 0x08 ∧ opField 0xD4000000 = 0x35 ∧ opField 0xE4000000 = 0x39 := by decide
theorem test_wit_PackAndUnpack : ([] : List Bool).length % 8 = 0 ∧ (List.replicate 16 true).length % 8 = 0 := by decide
theorem test_wit_BitpackerFacts : ∃ m, buildMessage (withHi 2).pay 21 0 = some m ∧ readAt (withHi 2).pay 2 = 0
    ∧ readAt (withHi 2).pay 0 ≠ 0 ∧ readAt (withHi 2).pay 1 ≠ 0 := ⟨_, rfl, by decide⟩
theorem test_wit_BitpackerFacts_noZero : ∃ m, buildMessage (tabulate 22 fun _ => 0x41) 21 0 = some m
    ∧ ∀ k, k < 21 → readAt (tabulate 22 fun _ => (0x41 : Byte)) k ≠ 0 := ⟨_, rfl, by decide⟩
/-- Also for `LongPayloadsAreRejected`, `EncodeWritesEveryStage` and `EncodeIsBuildHencaPlace`. -/
theorem test_wit_BuildAssemblesTheMessage : (withHi 21).plen.toNat ≤ 21 ∧ (withHi 21).plen.toNat = 21
    ∧ 21 < (withHi 22).plen.toNat := by decide
theorem test_wit_EncoderProperties : (1 : Chunk) ≠ 0 ∧ henc 1 = henc 1 := by decide
theorem test_wit_DecoderTable : (overall 0x0000 = false ∧ syndrome 0x0000 = 0) ∧ (overall 0x0001 = true ∧ syndrome 0x0001 = 0)
    ∧ (overall 0x8000 = true ∧ syndrome 0x8000 ≠ 0) ∧ (overall 0x0003 = false ∧ syndrome 0x0003 ≠ 0) := by decide +kernel
theorem test_wit_AcceptedWordsAreNearCodewords : (hdec 0x8000).doubleError = false := by decide +kernel
theorem test_wit_HdecDecodesOneChunk :
    (hdec (readAt (withCodewords fun _ => 0x0204).cw 15)).doubleError = true
    ∧ (hdec (readAt (withCodewords fun _ => 0x0200).cw 15)).doubleError = false := by decide +kernel
theorem test_wit_HdecaScansTheChunks : NoDoubleError (withCodewords fun _ => 0x8000).cw
    ∧ FirstDoubleError (withCodewords fun _ => 3).cw 0
    ∧ FirstDoubleError (withCodewords fun ch => if ch = 15 then 3 else 1).cw 15 := by decide +kernel
theorem test_wit_PlaceWritesTheGrid : (15 : Nat) < 16 ∧ cellOf 15 15 = (19, 19) ∧ cellOf 0 0 = (4, 4) := by decide
theorem test_wit_OvlForcesTheFinder : FinderIntact State.reset.grid := by decide +kernel
theorem test_wit_TogInvertsDataCells : (4 ≤ (4#5).toNat ∧ (4#5).toNat ≤ 19) ∧ (4 ≤ (19#5).toNat ∧ (19#5).toNat ≤ 19)
    ∧ ((3#5).toNat ≤ 19 ∧ (3#5).toNat < 4) ∧ 19 < (20#5).toNat := by decide
theorem test_wit_DecodeIsExtrHdecaUnpk : NoDoubleError (extract State.reset.grid) := by decide +kernel
theorem test_wit_RejectedDecodeLeavesThePayload :
    FirstDoubleError (extract (tabulate 20 fun r => if r = 5 then 0x02005 else if r = 13 then 0x00205 else 5)) 5 := by
  decide +kernel
/-- Also for `SingleBitResilience` and `DoubleBitDetection`. -/
theorem test_wit_RoundTrip : (withHi 2).plen.toNat ≤ 21 ∧ ∀ k, k < (withHi 2).plen.toNat → readAt (withHi 2).pay k ≠ 0 := by
  decide
theorem test_wit_encodeBytes : ∃ g, encodeBytes (withHi 2).pay 2 0 = some g := ⟨_, rfl⟩

theorem cellOf_eq_last : ∀ ch, ch < 16 → ∀ b, b < 16 → (((cellOf b ch).1 = 19 ∧ (cellOf b ch).2 = 19) ↔ (ch = 15 ∧ b = 15)) := by
  decide +kernel
theorem cellOf_lt : ∀ ch, ch < 16 → ∀ b, b < 16 → (cellOf b ch).1 < 20 ∧ (cellOf b ch).2 < 20 := by decide +kernel

/-- For the second part of `SingleBitResilience`: bit 15 of chunk 15 is the one bit hit, in any grid. -/
theorem test_wit_SingleBitResilience (g : Grid) :
    HitOncePerChunk g (hitGrid g 19 19) (fun ch => if ch = 15 then some 15 else none) (fun _ => True) := by
  intro ch hch _
  refine ⟨fun b h => ?_, fun b hb => ?_⟩
  · dsimp only at h
    split at h <;> cases h
    decide
  · have hl := cellOf_lt ch hch b hb
    rw [hitGrid, gridCell_setCell _ _ _ _ hl.1 hl.2]
    have hc := cellOf_eq_last ch hch b hb
    by_cases h : ch = 15 ∧ b = 15
    · obtain ⟨h1, h2⟩ := h
      subst h1; subst h2
      rw [if_pos (by decide)]
      have e : cellOf 15 15 = (19, 19) := by decide
      simp [e]
    · rw [if_neg (fun x => h (hc.mp x))]
      by_cases h1 : ch = 15
      · have : b ≠ 15 := fun x => h ⟨h1, x⟩
        simp [h1, Ne.symm this]
      · simp [h1]

theorem cellOf_chunk0 : ∀ b, b < 16 → ((cellOf b 0).1 = 4 ∧ (cellOf b 0).2 = 4 ↔ b = 0)
    ∧ ((cellOf b 0).1 = 4 ∧ (cellOf b 0).2 = 8 ↔ b = 1) := by decide

/-- For the second part of `DoubleBitDetection`: bits 0 and 1 of chunk 0 are hit, in any grid, and there is no earlier chunk. -/
theorem test_wit_DoubleBitDetection (g : Grid) :
    HitTwice g (hitGrid (hitGrid g 4 4) 4 8) 0 0 1
    ∧ HitOncePerChunk g (hitGrid (hitGrid g 4 4) 4 8) (fun _ => none) (fun ch => ch < 0) := by
  refine ⟨fun b hb => ?_, fun ch _ h => absurd h (by omega)⟩
  have hl := cellOf_lt 0 (by decide) b hb
  obtain ⟨h0, h1⟩ := cellOf_chunk0 b hb
  simp only [hitGrid, gridCell_setCell _ _ _ _ hl.1 hl.2, h0, h1,
    gridCell_setCell g 4 4 _ (show 4 < 20 by decide) (show 8 < 20 by decide)]
  by_cases e0 : b = 0
  · subst e0; simp [cellOf]
  · by_cases e1 : b = 1
    · subst e1; simp [cellOf]
    · simp [e0, e1]

/-- The same with an earlier chunk: bits 0 and 1 of chunk 1 are hit, and bit 0 of chunk 0. -/
def hitTwoChunks : Grid := hitGrid (hitGrid (hitGrid freshGrid 4 4) 4 5) 4 9
theorem test_wit_DoubleBitDetection_encoded : encodeBytes State.reset.pay 0 0 = some freshGrid := by decide +kernel
theorem test_wit_DoubleBitDetection_twice : HitTwice freshGrid hitTwoChunks 1 0 1 := by
  unfold HitTwice; decide +kernel
theorem test_wit_DoubleBitDetection_earlier :
    HitOncePerChunk freshGrid hitTwoChunks (fun ch => if ch = 0 then some 0 else none) (fun ch => ch < 1) := by
  intro ch _ h
  obtain rfl : ch = 0 := by omega
  exact ⟨by simp, by decide +kernel⟩

/-- Two `ENCODE`s in a row: the second starts from what the first left, with a draw of its own. -/
theorem test_wit_DrawDecidesTheGrid : ∃ t, exec .encode (withHi 2) = .next t
    ∧ { t with draw := 1 }.pay = (withHi 2).pay ∧ { t with draw := 1 }.plen = (withHi 2).plen
    ∧ (withHi 2).plen.toNat ≤ 21 ∧ t.grid ≠ (withHi 2).grid := ⟨_, rfl, rfl, rfl, by decide, by decide +kernel⟩

theorem test_wit_DecodingIgnoresTheFinder : SameDataRegion State.reset.grid (tabulate 20 fun _ => 0)
    ∧ (tabulate 20 fun _ => (0 : GridRow)) ≠ State.reset.grid := by decide +kernel

/-- The bounded indices of the statements about messages, codewords and cells, at both ends: `CodewordsMove`, `SplitAndJoin`,
`UnpkDisassemblesTheMessage`, `EncoderFollowsItsSteps`, `HencEncodesOneChunk`, `HencaEncodesEveryChunk`, `MapperIsBijective`,
`ExtrReadsTheGrid`. -/
theorem test_wit_indices : ((0 : Nat) < 16 ∧ (15 : Nat) < 16 ∧ (15 : Nat) ≠ (14#4).toNat) ∧ ((10 : Nat) < 11 ∧ (7 : Nat) < 8 ∧ (21 : Nat) < 22)
    ∧ (8 ∈ [1, 2, 4, 8]) ∧ (4 ≤ (bitOf 19 19).1 ∧ bitOf 4 4 = (0, 0)) := by decide
theorem test_wit_DoubleErrorsAreDetected : (0 : Nat) < 16 ∧ (15 : Nat) < 16 ∧ (0 : Nat) ≠ 15 ∧ flipBit (henc 0) 15 = 0x8000
    ∧ flipBit (flipBit (henc 0) 0) 15 = 0x8001 := by decide +kernel
theorem test_wit_OverlayPattern : (3 : Nat) < 20 ∧ (19 : Nat) < 20 ∧ ((3 : Nat) < 4 ∨ (19 : Nat) < 4) := by decide

end Sys2Proof.Tests
end

section
/-!
The registers after reset (spec/10_state.md R22).
-/

namespace Sys2Proof.Machine

set_option Elab.async false

/-- R143: the rows of the fresh grid, as the table of R22 lists them. -/
theorem freshGrid_toList :
    freshGrid.toList = [0xFFFFF, 0x80009, 0xFFFFD, 0x00007] ++ List.replicate 15 0x00005 ++ [0x00007] := by
  decide +kernel

/-- Settles O14: the grid is the fresh grid, and every other register holds zeros only. -/
theorem resetValues : Obligations.ResetValues := by
  unfold Obligations.ResetValues
  rw [State.reset_grid, State.reset_pay, State.reset_cw]
  exact ⟨freshGrid_toList, fun _ hi => readAt_tabulate _ hi, State.reset_plen, State.reset_msg,
    fun _ hch => readAt_tabulate _ hch, State.reset_stat⟩

end Sys2Proof.Machine
end

section
/-!
Reads and writes of held values (spec/20_memory.md R38).
-/

namespace Sys2Proof.Machine

set_option Elab.async false

/-! ### Commands that only answer -/

/-- From the registers of `s`, `run` gives one response, the same whatever was answered before, and changes nothing else. -/
def AnswersOnly (run : State → Result) (s : State) : Prop :=
  ∃ r : Response, ∀ rs, run { s with responses := rs } = .next { s with responses := r :: rs }

/-- A response computed from the registers alone. -/
theorem answersOnly_respondOk {value : State → Value} {s : State} (h : ∀ rs, value { s with responses := rs } = value s) :
    AnswersOnly (fun t => respondOk t (value t)) s :=
  ⟨⟨.ok, value s⟩, fun rs => by rw [← h rs]; rfl⟩

theorem answersOnly_withBytePos {run : Nat → State → Result} {s : State} (pos : BitVec 5) (h : ∀ k, AnswersOnly (run k) s) :
    AnswersOnly (fun t => withBytePos pos t (run · t)) s := by
  rcases le_or_gt pos.toNat 21 with hpos | hpos
  · obtain ⟨r, hr⟩ := h pos.toNat
    exact ⟨r, fun rs => (withBytePos_of_le hpos).trans (hr rs)⟩
  · exact ⟨⟨.illegalCommand, 0⟩, fun _ => withBytePos_of_lt hpos⟩

theorem answersOnly_withGridIdx {run : Nat → State → Result} {s : State} (i : BitVec 5) (h : ∀ k, AnswersOnly (run k) s) :
    AnswersOnly (fun t => withGridIdx i t (run · t)) s := by
  rcases le_or_gt i.toNat 19 with hi | hi
  · obtain ⟨r, hr⟩ := h i.toNat
    exact ⟨r, fun rs => (withGridIdx_of_le hi).trans (hr rs)⟩
  · exact ⟨⟨.illegalCommand, 0⟩, fun _ => withGridIdx_of_lt hi⟩

/-- The reads of R38, with `HENCI` and `HDECI`, only answer. -/
theorem exec_read_answersOnly (i : Instr) (s : State)
    (h : (∃ p, i = .rdpay p) ∨ i = .rdlen ∨ (∃ p, i = .rdmsg p) ∨ (∃ ch, i = .rdcw ch) ∨ (∃ r, i = .rdrow r)
      ∨ i = .rdstat ∨ (∃ v, i = .henci v) ∨ (∃ v, i = .hdeci v)) : AnswersOnly (exec i) s := by
  obtain ⟨p, rfl⟩ | rfl | ⟨p, rfl⟩ | ⟨ch, rfl⟩ | ⟨r, rfl⟩ | rfl | ⟨v, rfl⟩ | ⟨v, rfl⟩ := h
  · exact answersOnly_withBytePos p fun _ => answersOnly_respondOk fun _ => rfl
  · exact answersOnly_respondOk fun _ => rfl
  · exact answersOnly_withBytePos p fun _ => answersOnly_respondOk fun _ => rfl
  · exact answersOnly_respondOk fun _ => rfl
  · exact answersOnly_withGridIdx r fun _ => answersOnly_respondOk fun _ => rfl
  · exact answersOnly_respondOk fun _ => rfl
  · exact answersOnly_respondOk fun _ => rfl
  · exact answersOnly_respondOk fun _ => rfl

/-! ### Writes of the value already held -/

theorem writeMsgByte_msgByte (m : Message) (k : Nat) : writeMsgByte m k (msgByte m k) = m := by
  refine BitVec.eq_of_getLsbD_eq fun i hi => ?_
  rw [getLsbD_writeMsgByte m k _ hi]
  split
  case isTrue hk =>
    have hbit : 8 * k + i % 8 = i := by omega
    rw [getLsbD_msgByte m k (by omega), hbit]
  case isFalse => rfl

theorem exec_wrpay_held {p : BitVec 5} (s : State) (hp : p.toNat ≤ 21) :
    exec (.wrpay p (readAt s.pay p.toNat)) s = .next (answered s .ok 0) :=
  calc exec (.wrpay p (readAt s.pay p.toNat)) s
    _ = respondOk (s.withPay (writeAt s.pay p.toNat (readAt s.pay p.toNat))) 0 := withBytePos_of_le hp
    _ = .next (answered s .ok 0) := by rw [writeAt_readAt]; rfl

theorem exec_wrmsg_held {p : BitVec 5} (s : State) (hp : p.toNat ≤ 21) :
    exec (.wrmsg p (msgByte s.msg p.toNat)) s = .next (answered s .ok 0) :=
  calc exec (.wrmsg p (msgByte s.msg p.toNat)) s
    _ = respondOk (s.withMsg (writeMsgByte s.msg p.toNat (msgByte s.msg p.toNat))) 0 := withBytePos_of_le hp
    _ = .next (answered s .ok 0) := by rw [writeMsgByte_msgByte]; rfl

theorem exec_wrlen_held (s : State) : exec (.wrlen s.plen) s = .next (answered s .ok 0) := rfl

theorem exec_wrcw_held (ch : BitVec 4) (s : State) :
    exec (.wrcw ch (readAt s.cw ch.toNat)) s = .next (answered s .ok 0) :=
  calc exec (.wrcw ch (readAt s.cw ch.toNat)) s
    _ = respondOk (s.withCw (writeAt s.cw ch.toNat (readAt s.cw ch.toNat))) 0 := rfl
    _ = .next (answered s .ok 0) := by rw [writeAt_readAt]; rfl

theorem exec_wrrow_held {r : BitVec 5} (s : State) (hr : r.toNat ≤ 19) :
    exec (.wrrow r (readAt s.grid r.toNat)) s = .next (answered s .ok 0) :=
  calc exec (.wrrow r (readAt s.grid r.toNat)) s
    _ = respondOk (s.withGrid (writeAt s.grid r.toNat (readAt s.grid r.toNat))) 0 := withGridIdx_of_le hr
    _ = .next (answered s .ok 0) := by rw [writeAt_readAt]; rfl

/-- Settles O17: a read only answers, so a second one finds the same registers; a held value written back is the
element it replaces. -/
theorem readsHaveNoSideEffect : Obligations.ReadsHaveNoSideEffect := by
  unfold Obligations.ReadsHaveNoSideEffect
  intro s
  refine ⟨fun i hi => ?_, fun p hp => ⟨exec_wrpay_held s hp, exec_wrmsg_held s hp⟩, exec_wrlen_held s,
    fun ch => exec_wrcw_held ch s, fun r hr => exec_wrrow_held s hr⟩
  obtain ⟨r, hr⟩ := exec_read_answersOnly i s hi
  exact ⟨_, _, r, hr s.responses, rfl, hr (r :: s.responses), rfl⟩

end Sys2Proof.Machine
end

section
/-!
Decoding against the table (spec/30_encoding.md R41, R42, R45): the answer that a row of R42 gives a word, and that `decode`
gives the answer of the row with the word's opcode.
-/

namespace Sys2Proof.Machine

set_option Elab.async false

/-! ### The answer a row gives -/

/-- The value checks of a row (R42). -/
abbrev WithinLimits (row : OpcodeRow) (w : Word) : Prop :=
  (idxField w).toNat ≤ row.idxMax ∧ (immField w).toNat ≤ row.immMax

theorem rowAccepts_iff {row : OpcodeRow} {w : Word} :
    rowAccepts row w = true ↔ w &&& row.mask = row.matchBits ∧ WithinLimits row w := by
  simp [rowAccepts, and_assoc]

/-- What cases 3 and 4 of R45 leave of a word with the opcode of `row`, whose operands make the command `i`. -/
def rowAnswer (row : OpcodeRow) (w : Word) (i : Instr) : Except DecodeError Instr :=
  if w &&& row.mask = row.matchBits then
    if WithinLimits row w then .ok i else .error .valueCheck
  else .error .maskedBit

section
variable {row : OpcodeRow} {w : Word} {i : Instr}

theorem rowAnswer_eq_ok_iff {j : Instr} : rowAnswer row w i = .ok j ↔ rowAccepts row w = true ∧ i = j := by
  rw [rowAccepts_iff, rowAnswer]
  split_ifs with hm hl
  · rw [Except.ok.injEq, and_iff_right ⟨hm, hl⟩]
  · simp [hl]
  · simp [hm]

theorem rowAnswer_eq_maskedBit_iff : rowAnswer row w i = .error .maskedBit ↔ w &&& row.mask ≠ row.matchBits := by
  rw [rowAnswer]
  split_ifs with hm <;> simp [hm]

theorem rowAnswer_eq_valueCheck_iff :
    rowAnswer row w i = .error .valueCheck ↔ w &&& row.mask = row.matchBits ∧ ¬WithinLimits row w := by
  rw [rowAnswer]
  split_ifs with hm hl
  · simp [hl]
  · simp only [hm, hl, not_false_eq_true, and_self]
  · simp [hm]

theorem rowAnswer_ne_reservedBit : rowAnswer row w i ≠ .error .reservedBit := by
  rw [rowAnswer]
  split_ifs <;> simp

theorem rowAnswer_ne_reservedOpcode : rowAnswer row w i ≠ .error .reservedOpcode := by
  rw [rowAnswer]
  split_ifs <;> simp

end

/-! ### Masks, field by field -/

theorem opField_and (w m : Word) : opField (w &&& m) = opField w &&& opField m := BitVec.extractLsb'_and ..

theorem idxField_and (w m : Word) : idxField (w &&& m) = idxField w &&& idxField m := BitVec.extractLsb'_and ..

theorem immField_and (w m : Word) : immField (w &&& m) = immField w &&& immField m := BitVec.extractLsb'_and ..

theorem zField_and (w m : Word) : zField (w &&& m) = (zField w && zField m) := BitVec.getLsbD_and

/-- The mask covers `op`, and of `idx` and `imm` all but the low `j` and the low `k` bits (R41). -/
abbrev MaskFrees (mask : Word) (j k : Nat) : Prop :=
  opField mask = BitVec.allOnes 6 ∧ idxField mask = BitVec.allOnes 5 <<< j ∧ immField mask = BitVec.allOnes 20 <<< k

theorem and_allOnes_shiftLeft_eq_zero_iff {n k : Nat} (x : BitVec n) :
    x &&& BitVec.allOnes n <<< k = 0 ↔ x.toNat < 2 ^ k := by
  constructor
  · intro h
    refine Nat.lt_pow_two_of_testBit _ fun i hi => ?_
    have hbit := congrArg (BitVec.getLsbD · i) h
    rw [BitVec.testBit_toNat]
    by_cases hn : i < n
    · simpa [hn, hi, show i - k < n by omega, Nat.not_lt.mpr hi] using hbit
    · exact BitVec.getLsbD_of_ge x i (by omega)
  · intro h
    refine BitVec.eq_of_getLsbD_eq fun i hi => ?_
    by_cases hk : i < k
    · simp [hk]
    · have hbit : x.getLsbD i = false :=
        Nat.testBit_lt_two_pow (Nat.lt_of_lt_of_le h (Nat.pow_le_pow_right (by decide) (by omega)))
      simp [hbit]

/-- Matching under a mask: the free operand bits hold the operands. -/
theorem and_mask_eq_iff {w mask : Word} {op : BitVec 6} {j k : Nat} (hz : zField w = false) (hop : opField w = op)
    (hmask : MaskFrees mask j k) :
    w &&& mask = commandWord op 0 0 ↔ (idxField w).toNat < 2 ^ j ∧ (immField w).toNat < 2 ^ k := by
  obtain ⟨hmop, hmidx, hmimm⟩ := hmask
  have hz' : zField (w &&& mask) = false := by rw [zField_and, hz, Bool.false_and]
  have hop' : opField (w &&& mask) = op := by rw [opField_and, hmop, BitVec.and_allOnes, hop]
  rw [← and_allOnes_shiftLeft_eq_zero_iff, ← hmidx, ← idxField_and, ← and_allOnes_shiftLeft_eq_zero_iff, ← hmimm,
    ← immField_and]
  constructor
  · intro h
    rw [h]
    exact ⟨Laws.idxField_commandWord .., Laws.immField_commandWord ..⟩
  · rintro ⟨hidx, himm⟩
    rw [← Laws.commandWord_fields hz', hop', hidx, himm]

/-! ### The operand forms of R41 -/

theorem eq_zero_iff_toNat_lt {n : Nat} {x : BitVec n} : x = 0 ↔ x.toNat < 2 ^ 0 := by
  rw [BitVec.toNat_eq]; simp

theorem extractLsb'_eq_zero_iff_toNat_lt {n k m : Nat} (x : BitVec n) (h : n = k + m) :
    x.extractLsb' k m = 0 ↔ x.toNat < 2 ^ k := by
  subst h
  have hx : x.toNat / 2 ^ k < 2 ^ m := Nat.div_lt_of_lt_mul (by rw [← Nat.pow_add]; exact x.isLt)
  rw [BitVec.toNat_eq, BitVec.extractLsb'_toNat, Nat.shiftRight_eq_div_pow, Nat.mod_eq_of_lt hx]
  simp [Nat.div_eq_zero_iff]

theorem getLsbD_four_eq_false_iff_toNat_lt {x : BitVec 5} : x.getLsbD 4 = false ↔ x.toNat < 2 ^ 4 := by
  decide +revert

theorem bytePosOk_iff {pos : BitVec 5} : bytePosOk pos = true ↔ pos.toNat ≤ 21 :=
  decide_eq_true_iff.trans Nat.lt_succ_iff

theorem gridIdxOk_iff {i : BitVec 5} : gridIdxOk i = true ↔ i.toNat ≤ 19 :=
  decide_eq_true_iff.trans Nat.lt_succ_iff

theorem le_iff_withinLimits {row : OpcodeRow} {w : Word} {n : Nat} (hidx : row.idxMax = n) (himm : row.immMax = 0xFFFFF) :
    (idxField w).toNat ≤ n ↔ WithinLimits row w := by
  have := (immField w).isLt
  rw [WithinLimits, hidx, himm, and_iff_left (by omega)]

theorem withinLimits_default {row : OpcodeRow} {w : Word} (hidx : row.idxMax = 31) (himm : row.immMax = 0xFFFFF) :
    WithinLimits row w :=
  (le_iff_withinLimits hidx himm).mp (Nat.le_of_lt_succ (idxField w).isLt)

/-- The bits test of a form and its values test are the row's two tests. -/
theorem ite_eq_rowAnswer {row : OpcodeRow} {w : Word} {i : Instr} {fits bits checks : Prop} [Decidable bits]
    [Decidable checks] (hm : w &&& row.mask = row.matchBits ↔ fits) (hb : bits ↔ fits)
    (hc : bits → (checks ↔ WithinLimits row w)) :
    (if bits then if checks then .ok i else .error .valueCheck else .error .maskedBit) = rowAnswer row w i := by
  have hbm : bits ↔ w &&& row.mask = row.matchBits := hb.trans hm.symm
  rw [rowAnswer]
  exact if_ctx_congr hbm (fun h => if_congr (hc (hbm.mpr h)) rfl rfl) fun _ => rfl

/-- The same for a form that tests no value. -/
theorem ite_ok_eq_rowAnswer {row : OpcodeRow} {w : Word} {i : Instr} {fits bits : Prop} [Decidable bits]
    (hm : w &&& row.mask = row.matchBits ↔ fits) (hb : bits ↔ fits) (hl : WithinLimits row w) :
    (if bits then .ok i else .error .maskedBit) = rowAnswer row w i := by
  rw [rowAnswer, if_pos hl]
  exact if_congr (hb.trans hm.symm) rfl rfl

section
variable {w : Word} {op : BitVec 6} (hz : zField w = false) (hop : opField w = op) {m : String}
include hz hop

theorem formNone_eq_rowAnswer (i : Instr) :
    formNone w i = rowAnswer { mnemonic := m, matchBits := commandWord op 0 0, mask := 0xFFFFFFFF } w i :=
  ite_ok_eq_rowAnswer (and_mask_eq_iff hz hop (by decide : MaskFrees 0xFFFFFFFF 0 0))
    (by rw [eq_zero_iff_toNat_lt, eq_zero_iff_toNat_lt])
    (withinLimits_default rfl rfl)

theorem formPosByte_eq_rowAnswer (f : BitVec 5 → Byte → Instr) :
    formPosByte w f = rowAnswer { mnemonic := m, matchBits := commandWord op 0 0, mask := 0xFC1FFF00, idxMax := 21 } w
      (f (idxField w) ((immField w).extractLsb' 0 8)) :=
  ite_eq_rowAnswer (and_mask_eq_iff hz hop (by decide : MaskFrees 0xFC1FFF00 5 8))
    (by rw [extractLsb'_eq_zero_iff_toNat_lt _ rfl, and_iff_right (idxField w).isLt])
    fun _ => bytePosOk_iff.trans (le_iff_withinLimits rfl rfl)

theorem formPos_eq_rowAnswer (f : BitVec 5 → Instr) :
    formPos w f = rowAnswer { mnemonic := m, matchBits := commandWord op 0 0, mask := 0xFC1FFFFF, idxMax := 21 } w
      (f (idxField w)) :=
  ite_eq_rowAnswer (and_mask_eq_iff hz hop (by decide : MaskFrees 0xFC1FFFFF 5 0))
    (by rw [eq_zero_iff_toNat_lt, and_iff_right (idxField w).isLt])
    fun _ => bytePosOk_iff.trans (le_iff_withinLimits rfl rfl)

theorem formLen_eq_rowAnswer (f : BitVec 5 → Instr) :
    formLen w f = rowAnswer { mnemonic := m, matchBits := commandWord op 0 0, mask := 0xFFFFFFE0 } w
      (f ((immField w).extractLsb' 0 5)) :=
  ite_ok_eq_rowAnswer (and_mask_eq_iff hz hop (by decide : MaskFrees 0xFFFFFFE0 0 5))
    (by rw [eq_zero_iff_toNat_lt, extractLsb'_eq_zero_iff_toNat_lt _ rfl])
    (withinLimits_default rfl rfl)

theorem formChunkCw_eq_rowAnswer (f : BitVec 4 → Codeword → Instr) :
    formChunkCw w f = rowAnswer { mnemonic := m, matchBits := commandWord op 0 0, mask := 0xFE1F0000 } w
      (f ((idxField w).extractLsb' 0 4) ((immField w).extractLsb' 0 16)) :=
  ite_ok_eq_rowAnswer (and_mask_eq_iff hz hop (by decide : MaskFrees 0xFE1F0000 4 16))
    (by rw [getLsbD_four_eq_false_iff_toNat_lt, extractLsb'_eq_zero_iff_toNat_lt _ rfl])
    (withinLimits_default rfl rfl)

theorem formChunk_eq_rowAnswer (f : BitVec 4 → Instr) :
    formChunk w f = rowAnswer { mnemonic := m, matchBits := commandWord op 0 0, mask := 0xFE1FFFFF } w
      (f ((idxField w).extractLsb' 0 4)) :=
  ite_ok_eq_rowAnswer (and_mask_eq_iff hz hop (by decide : MaskFrees 0xFE1FFFFF 4 0))
    (by rw [getLsbD_four_eq_false_iff_toNat_lt, eq_zero_iff_toNat_lt])
    (withinLimits_default rfl rfl)

theorem formRowBits_eq_rowAnswer (f : BitVec 5 → GridRow → Instr) :
    formRowBits w f = rowAnswer { mnemonic := m, matchBits := commandWord op 0 0, mask := 0xFC100000, idxMax := 19 } w
      (f (idxField w) (immField w)) :=
  (if_pos trivial).symm.trans <| ite_eq_rowAnswer (bits := True)
    (and_mask_eq_iff hz hop (by decide : MaskFrees 0xFC100000 5 20))
    (iff_of_true trivial ⟨(idxField w).isLt, (immField w).isLt⟩)
    fun _ => gridIdxOk_iff.trans (le_iff_withinLimits rfl rfl)

theorem formRow_eq_rowAnswer (f : BitVec 5 → Instr) :
    formRow w f = rowAnswer { mnemonic := m, matchBits := commandWord op 0 0, mask := 0xFC1FFFFF, idxMax := 19 } w
      (f (idxField w)) :=
  ite_eq_rowAnswer (and_mask_eq_iff hz hop (by decide : MaskFrees 0xFC1FFFFF 5 0))
    (by rw [eq_zero_iff_toNat_lt, and_iff_right (idxField w).isLt])
    fun _ => gridIdxOk_iff.trans (le_iff_withinLimits rfl rfl)

theorem formRowCol_eq_rowAnswer (f : BitVec 5 → BitVec 5 → Instr) :
    formRowCol w f =
      rowAnswer { mnemonic := m, matchBits := commandWord op 0 0, mask := 0xFC1FFFE0, idxMax := 19, immMax := 19 } w
        (f (idxField w) ((immField w).extractLsb' 0 5)) := by
  have hbits : (immField w).extractLsb' 5 15 = 0 ↔ (immField w).toNat < 2 ^ 5 := extractLsb'_eq_zero_iff_toNat_lt _ rfl
  refine ite_eq_rowAnswer (and_mask_eq_iff hz hop (by decide : MaskFrees 0xFC1FFFE0 5 5)) ?_ fun hcol => ?_
  · rw [hbits, and_iff_right (idxField w).isLt]
  · have hlow : ((immField w).extractLsb' 0 5).toNat = (immField w).toNat := by
      rw [BitVec.extractLsb'_toNat]
      exact Nat.mod_eq_of_lt (hbits.mp hcol)
    rw [Bool.and_eq_true, gridIdxOk_iff, gridIdxOk_iff, hlow]

theorem formData_eq_rowAnswer (f : Chunk → Instr) :
    formData w f = rowAnswer { mnemonic := m, matchBits := commandWord op 0 0, mask := 0xFFFFF800 } w
      (f ((immField w).extractLsb' 0 11)) :=
  ite_ok_eq_rowAnswer (and_mask_eq_iff hz hop (by decide : MaskFrees 0xFFFFF800 0 11))
    (by rw [eq_zero_iff_toNat_lt, extractLsb'_eq_zero_iff_toNat_lt _ rfl])
    (withinLimits_default rfl rfl)

theorem formCw_eq_rowAnswer (f : Codeword → Instr) :
    formCw w f = rowAnswer { mnemonic := m, matchBits := commandWord op 0 0, mask := 0xFFFF0000 } w
      (f ((immField w).extractLsb' 0 16)) :=
  ite_ok_eq_rowAnswer (and_mask_eq_iff hz hop (by decide : MaskFrees 0xFFFF0000 0 16))
    (by rw [eq_zero_iff_toNat_lt, extractLsb'_eq_zero_iff_toNat_lt _ rfl])
    (withinLimits_default rfl rfl)

end

/-! ### The rows of R42 -/

theorem matchBits_fields : ∀ row ∈ opcodeTable,
    opField row.mask = BitVec.allOnes 6 ∧ zField row.mask = true ∧ zField row.matchBits = false := by decide

/-- No two rows have one opcode. -/
theorem eq_of_opField_matchBits : ∀ a ∈ opcodeTable, ∀ b ∈ opcodeTable,
    opField a.matchBits = opField b.matchBits → a = b := by decide

/-- A word that matches a row has the row's opcode, and its reserved bit is 0. -/
theorem fields_of_match {w : Word} {row : OpcodeRow} (hrow : row ∈ opcodeTable) (h : w &&& row.mask = row.matchBits) :
    opField row.matchBits = opField w ∧ zField w = false := by
  obtain ⟨hop, hzm, hz⟩ := matchBits_fields row hrow
  rw [← h, zField_and, hzm, Bool.and_true] at hz
  exact ⟨by rw [← h, opField_and, hop, BitVec.and_allOnes], hz⟩

/-! ### What `decode` answers -/

theorem decode_of_reservedBit {w : Word} (hz : zField w = true) : decode w = .error .reservedBit := if_pos hz

/-- `r` is the answer of a row that has the word's opcode, for a command with the row's mnemonic. -/
def AnsweredByRow (w : Word) (r : Except DecodeError Instr) : Prop :=
  ∃ row ∈ opcodeTable, opField row.matchBits = opField w ∧ ∃ i : Instr, i.mnemonic = row.mnemonic ∧ r = rowAnswer row w i

theorem answeredByRow_of_getElem? (k : Nat) {w : Word} {row : OpcodeRow} {i : Instr} {r : Except DecodeError Instr}
    (hk : opcodeTable[k]? = some row) (hop : opField w = opField row.matchBits) (hi : i.mnemonic = row.mnemonic)
    (hr : r = rowAnswer row w i) : AnsweredByRow w r :=
  ⟨row, List.mem_of_getElem? hk, hop.symm, i, hi, hr⟩

/-- Once the reserved bit is 0: no row has the word's opcode, or a row has it and answers. -/
theorem decode_cases {w : Word} (hz : zField w = false) :
    (decode w = .error .reservedOpcode ∧ ∀ row ∈ opcodeTable, opField row.matchBits ≠ opField w)
    ∨ AnsweredByRow w (decode w) := by
  rw [decode, if_neg (by simp [hz])]
  split
  next h => exact .inr (answeredByRow_of_getElem? 0 rfl h rfl (formNone_eq_rowAnswer hz h _))
  next h => exact .inr (answeredByRow_of_getElem? 1 rfl h rfl (formNone_eq_rowAnswer hz h _))
  next h => exact .inr (answeredByRow_of_getElem? 2 rfl h rfl (formPosByte_eq_rowAnswer hz h _))
  next h => exact .inr (answeredByRow_of_getElem? 3 rfl h rfl (formPos_eq_rowAnswer hz h _))
  next h => exact .inr (answeredByRow_of_getElem? 4 rfl h rfl (formLen_eq_rowAnswer hz h _))
  next h => exact .inr (answeredByRow_of_getElem? 5 rfl h rfl (formNone_eq_rowAnswer hz h _))
  next h => exact .inr (answeredByRow_of_getElem? 6 rfl h rfl (formPosByte_eq_rowAnswer hz h _))
  next h => exact .inr (answeredByRow_of_getElem? 7 rfl h rfl (formPos_eq_rowAnswer hz h _))
  next h => exact .inr (answeredByRow_of_getElem? 8 rfl h rfl (formChunkCw_eq_rowAnswer hz h _))
  next h => exact .inr (answeredByRow_of_getElem? 9 rfl h rfl (formChunk_eq_rowAnswer hz h _))
  next h => exact .inr (answeredByRow_of_getElem? 10 rfl h rfl (formRowBits_eq_rowAnswer hz h _))
  next h => exact .inr (answeredByRow_of_getElem? 11 rfl h rfl (formRow_eq_rowAnswer hz h _))
  next h => exact .inr (answeredByRow_of_getElem? 12 rfl h rfl (formNone_eq_rowAnswer hz h _))
  next h => exact .inr (answeredByRow_of_getElem? 13 rfl h rfl (formNone_eq_rowAnswer hz h _))
  next h => exact .inr (answeredByRow_of_getElem? 14 rfl h rfl (formNone_eq_rowAnswer hz h _))
  next h => exact .inr (answeredByRow_of_getElem? 15 rfl h rfl (formChunk_eq_rowAnswer hz h _))
  next h => exact .inr (answeredByRow_of_getElem? 16 rfl h rfl (formNone_eq_rowAnswer hz h _))
  next h => exact .inr (answeredByRow_of_getElem? 17 rfl h rfl (formData_eq_rowAnswer hz h _))
  next h => exact .inr (answeredByRow_of_getElem? 18 rfl h rfl (formChunk_eq_rowAnswer hz h _))
  next h => exact .inr (answeredByRow_of_getElem? 19 rfl h rfl (formNone_eq_rowAnswer hz h _))
  next h => exact .inr (answeredByRow_of_getElem? 20 rfl h rfl (formCw_eq_rowAnswer hz h _))
  next h => exact .inr (answeredByRow_of_getElem? 21 rfl h rfl (formNone_eq_rowAnswer hz h _))
  next h => exact .inr (answeredByRow_of_getElem? 22 rfl h rfl (formNone_eq_rowAnswer hz h _))
  next h => exact .inr (answeredByRow_of_getElem? 23 rfl h rfl (formNone_eq_rowAnswer hz h _))
  next h => exact .inr (answeredByRow_of_getElem? 24 rfl h rfl (formRowCol_eq_rowAnswer hz h _))
  next h => exact .inr (answeredByRow_of_getElem? 25 rfl h rfl (formNone_eq_rowAnswer hz h _))
  next h => exact .inr (answeredByRow_of_getElem? 26 rfl h rfl (formNone_eq_rowAnswer hz h _))
  next =>
    refine .inl ⟨rfl, fun row hrow hop => ?_⟩
    have hmem : opField w ∈ opcodeTable.map (opField ·.matchBits) := hop ▸ List.mem_map_of_mem hrow
    simp_all [opcodeTable, opcodeRowsAccess, opcodeRowsCodec, opField]

/-- A row with the word's opcode answers for the word. -/
theorem decode_of_row {w : Word} {row : OpcodeRow} (hz : zField w = false) (hrow : row ∈ opcodeTable)
    (hop : opField row.matchBits = opField w) :
    ∃ i : Instr, i.mnemonic = row.mnemonic ∧ decode w = rowAnswer row w i := by
  obtain ⟨-, hnone⟩ | ⟨row', hrow', hop', h⟩ := decode_cases hz
  · exact absurd hop (hnone row hrow)
  · obtain rfl := eq_of_opField_matchBits row' hrow' row hrow (hop'.trans hop.symm)
    exact h

theorem decode_of_no_row {w : Word} (hz : zField w = false)
    (hnone : ∀ row ∈ opcodeTable, opField row.matchBits ≠ opField w) : decode w = .error .reservedOpcode := by
  obtain ⟨h, -⟩ | ⟨row, hrow, hop, -⟩ := decode_cases hz
  · exact h
  · exact absurd hop (hnone row hrow)

/-- An answer of `decode` other than the first two cases of R45 is the answer of a row. -/
theorem row_of_decode {w : Word} {r : Except DecodeError Instr} (h : decode w = r) (hbit : r ≠ .error .reservedBit)
    (hopc : r ≠ .error .reservedOpcode) : zField w = false ∧ AnsweredByRow w r := by
  subst h
  have hz : zField w = false := by
    by_contra hz
    exact hbit (decode_of_reservedBit (by simpa using hz))
  exact ⟨hz, (decode_cases hz).resolve_left fun h => hopc h.1⟩

theorem rowAccepts_of_decode {w : Word} {i : Instr} (h : decode w = .ok i) :
    ∃ row ∈ opcodeTable, row.mnemonic = i.mnemonic ∧ rowAccepts row w = true := by
  obtain ⟨-, row, hrow, -, j, hj, hdec⟩ := row_of_decode h (by simp) (by simp)
  obtain ⟨hacc, rfl⟩ := rowAnswer_eq_ok_iff.mp hdec.symm
  exact ⟨row, hrow, hj.symm, hacc⟩

theorem decode_of_rowAccepts {w : Word} {row : OpcodeRow} (hrow : row ∈ opcodeTable) (h : rowAccepts row w = true) :
    ∃ i, decode w = .ok i ∧ i.mnemonic = row.mnemonic := by
  obtain ⟨hop, hz⟩ := fields_of_match hrow (rowAccepts_iff.mp h).1
  obtain ⟨i, hi, hdec⟩ := decode_of_row hz hrow hop
  exact ⟨i, hdec.trans (rowAnswer_eq_ok_iff.mpr ⟨h, rfl⟩), hi⟩

/-- Settles O3: `decode` gives the answer of the one row with the word's opcode, and a match fixes the opcode. -/
theorem decodeFollowsMatchAndMask : Obligations.DecodeFollowsMatchAndMask := by
  unfold Obligations.DecodeFollowsMatchAndMask
  refine ⟨fun w i h => rowAccepts_of_decode h, fun w row hrow h => decode_of_rowAccepts hrow h,
    fun w a ha b hb hwa hwb => eq_of_opField_matchBits a ha b hb ?_⟩
  rw [(fields_of_match ha hwa).1, (fields_of_match hb hwb).1]

/-! ### The four cases of an illegal word (R45) -/

theorem decode_eq_reservedBit_iff {w : Word} : decode w = .error .reservedBit ↔ zField w = true := by
  refine ⟨fun h => ?_, decode_of_reservedBit⟩
  by_contra hz
  obtain ⟨hopc, -⟩ | ⟨row, -, -, i, -, hdec⟩ := decode_cases (by simpa using hz)
  · simp [hopc] at h
  · exact rowAnswer_ne_reservedBit (hdec.symm.trans h)

theorem decode_eq_reservedOpcode_iff {w : Word} : decode w = .error .reservedOpcode ↔
    zField w = false ∧ ∀ row ∈ opcodeTable, opField row.matchBits ≠ opField w := by
  refine ⟨fun h => ?_, fun ⟨hz, hnone⟩ => decode_of_no_row hz hnone⟩
  have hz : zField w = false := by
    rw [← Bool.not_eq_true, ← decode_eq_reservedBit_iff, h]
    simp
  obtain ⟨-, hnone⟩ | ⟨row, -, -, i, -, hdec⟩ := decode_cases hz
  · exact ⟨hz, hnone⟩
  · exact absurd (hdec.symm.trans h) rowAnswer_ne_reservedOpcode

theorem decode_eq_maskedBit_iff {w : Word} : decode w = .error .maskedBit ↔
    zField w = false ∧ ∃ row ∈ opcodeTable, opField row.matchBits = opField w ∧ w &&& row.mask ≠ row.matchBits := by
  constructor
  · intro h
    obtain ⟨hz, row, hrow, hop, i, -, hdec⟩ := row_of_decode h (by simp) (by simp)
    exact ⟨hz, row, hrow, hop, rowAnswer_eq_maskedBit_iff.mp hdec.symm⟩
  · rintro ⟨hz, row, hrow, hop, hne⟩
    obtain ⟨i, -, hdec⟩ := decode_of_row hz hrow hop
    exact hdec.trans (rowAnswer_eq_maskedBit_iff.mpr hne)

theorem decode_eq_valueCheck_iff {w : Word} : decode w = .error .valueCheck ↔
    zField w = false ∧ ∃ row ∈ opcodeTable, w &&& row.mask = row.matchBits ∧ ¬WithinLimits row w := by
  constructor
  · intro h
    obtain ⟨hz, row, hrow, -, i, -, hdec⟩ := row_of_decode h (by simp) (by simp)
    exact ⟨hz, row, hrow, rowAnswer_eq_valueCheck_iff.mp hdec.symm⟩
  · rintro ⟨hz, row, hrow, hbad⟩
    obtain ⟨i, -, hdec⟩ := decode_of_row hz hrow (fields_of_match hrow hbad.1).1
    exact hdec.trans (rowAnswer_eq_valueCheck_iff.mpr hbad)

/-! ### The step that meets a command word -/

theorem step_command {s : State} {w : Word} {d : Draw} {rest : List Event} (h : s.pending = .command w d :: rest) :
    step s = runWord w { s with pending := rest, draw := d } := by
  rw [step, takeEvent_command h]

theorem runWord_of_not_ok {w : Word} (s : State) (h : ∀ i, decode w ≠ .ok i) : runWord w s = illegalAnswer s := by
  rw [runWord]
  split
  next i hi => exact absurd hi (h i)
  next => rfl

/-- Settles O4: a case lemma for each of the four refusals, and the step of a word that decodes to no command. -/
theorem illegalWordsAnswerIllegalCommand : Obligations.IllegalWordsAnswerIllegalCommand := by
  unfold Obligations.IllegalWordsAnswerIllegalCommand
  exact ⟨fun _ => decode_eq_reservedBit_iff, fun _ => decode_eq_reservedOpcode_iff, fun _ => decode_eq_maskedBit_iff,
    fun _ => decode_eq_valueCheck_iff, fun _ _ _ _ hs hw => (step_command hs).trans (runWord_of_not_ok _ hw)⟩

end Sys2Proof.Machine
end

section
/-!
One response per command (spec/30_encoding.md R43).
-/

namespace Sys2Proof.Machine

set_option Elab.async false

/-! ### Commands that answer once -/

/-- The result goes on, with one response more than `s` holds and the inputs of `s` left waiting. -/
def AnswersOnce (s : State) (result : Result) : Prop :=
  ∃ t r, result = .next t ∧ t.responses = r :: s.responses ∧ t.pending = s.pending

theorem answersOnce_respondOk {s t : State} (v : Value) (hr : t.responses = s.responses) (hp : t.pending = s.pending) :
    AnswersOnce s (respondOk t v) :=
  ⟨t.respond .ok v, ⟨.ok, v⟩, rfl, by rw [State.respond_responses, hr], hp⟩

theorem answersOnce_takeFault {s t : State} (f : BlockFault) (hr : t.responses = s.responses)
    (hp : t.pending = s.pending) : AnswersOnce s (takeFault t f) := by
  cases f <;> exact ⟨_, _, rfl, congrArg _ hr, hp⟩

theorem answersOnce_illegalCommand (s : State) : AnswersOnce s (illegalCommand s) :=
  answersOnce_takeFault .illegalCommand rfl rfl

theorem answersOnce_withBytePos {pos : BitVec 5} {s : State} {run : Nat → Result} (h : ∀ k, AnswersOnce s (run k)) :
    AnswersOnce s (withBytePos pos s run) := by
  rcases le_or_gt pos.toNat 21 with hpos | hpos
  · rw [withBytePos_of_le hpos]; exact h _
  · rw [withBytePos_of_lt hpos]; exact answersOnce_illegalCommand s

theorem answersOnce_withGridIdx {i : BitVec 5} {s : State} {run : Nat → Result} (h : ∀ k, AnswersOnce s (run k)) :
    AnswersOnce s (withGridIdx i s run) := by
  rcases le_or_gt i.toNat 19 with hi | hi
  · rw [withGridIdx_of_le hi]; exact h _
  · rw [withGridIdx_of_lt hi]; exact answersOnce_illegalCommand s

/-! ### The shared operations keep the ports -/

theorem buildOp_ports {s t : State} (h : buildOp s = some t) : t.responses = s.responses ∧ t.pending = s.pending := by
  rw [buildOp] at h
  split at h
  next => cases h; exact ⟨rfl, rfl⟩
  next => cases h

@[simp] theorem unpkOp_responses (s : State) : (unpkOp s).responses = s.responses := by simp [unpkOp]
@[simp] theorem unpkOp_pending (s : State) : (unpkOp s).pending = s.pending := by simp [unpkOp]

@[simp] theorem extrOp_responses (s : State) : (extrOp s).responses = s.responses := by simp [extrOp]
@[simp] theorem extrOp_pending (s : State) : (extrOp s).pending = s.pending := by simp [extrOp]

@[simp] theorem hencaOp_responses (s : State) : (hencaOp s).responses = s.responses := by simp [hencaOp]
@[simp] theorem hencaOp_pending (s : State) : (hencaOp s).pending = s.pending := by simp [hencaOp]

@[simp] theorem placeOp_responses (s : State) : (placeOp s).responses = s.responses := by simp [placeOp]
@[simp] theorem placeOp_pending (s : State) : (placeOp s).pending = s.pending := by simp [placeOp]

@[simp] theorem hdecaAccept_responses (s : State) (n : Nat) (data : List Chunk) :
    (hdecaAccept s n data).responses = s.responses := by simp [hdecaAccept]
@[simp] theorem hdecaAccept_pending (s : State) (n : Nat) (data : List Chunk) :
    (hdecaAccept s n data).pending = s.pending := by simp [hdecaAccept]

/-! ### The commands with branches of their own -/

theorem execBuild_answersOnce (s : State) : AnswersOnce s (execBuild s) := by
  rw [execBuild]
  split
  next t h => exact answersOnce_respondOk _ (buildOp_ports h).1 (buildOp_ports h).2
  next => exact answersOnce_takeFault _ (by simp) (by simp)

theorem execEncode_answersOnce (s : State) : AnswersOnce s (execEncode s) := by
  rw [execEncode]
  split
  next t h => exact answersOnce_respondOk _ (buildOp_ports h).1 (buildOp_ports h).2
  next => exact answersOnce_takeFault _ (by simp) (by simp)

theorem execHdec_answersOnce (ch : BitVec 4) (s : State) : AnswersOnce s (execHdec ch s) := by
  rw [execHdec]
  split
  next => exact answersOnce_respondOk _ (by simp) (by simp)
  next => exact answersOnce_respondOk _ (by simp) (by simp)

theorem execHdeca_answersOnce (s : State) : AnswersOnce s (execHdeca s) := by
  rw [execHdeca]
  split
  next => exact answersOnce_respondOk _ (by simp) (by simp)
  next => exact answersOnce_takeFault _ (by simp) (by simp)

theorem execDecode_answersOnce (s : State) : AnswersOnce s (execDecode s) := by
  rw [execDecode]
  split
  next => exact answersOnce_respondOk _ (by simp) (by simp)
  next => exact answersOnce_takeFault _ (by simp) (by simp)

theorem execTog_answersOnce (row col : BitVec 5) (s : State) : AnswersOnce s (execTog row col s) := by
  refine answersOnce_withGridIdx fun r => answersOnce_withGridIdx fun c => ?_
  split
  next => exact answersOnce_respondOk _ (by simp) (by simp)
  next => exact answersOnce_respondOk _ (by simp) (by simp)

/-! ### Every command, every word -/

theorem exec_answersOnce (i : Instr) (s : State) : AnswersOnce s (exec i s) := by
  cases i with
  | wrpay | rdpay | wrmsg | rdmsg =>
    exact answersOnce_withBytePos fun _ => answersOnce_respondOk _ (by simp) (by simp)
  | wrrow | rdrow => exact answersOnce_withGridIdx fun _ => answersOnce_respondOk _ (by simp) (by simp)
  | tog row col => exact execTog_answersOnce row col s
  | build => exact execBuild_answersOnce s
  | encode => exact execEncode_answersOnce s
  | hdec ch => exact execHdec_answersOnce ch s
  | hdeca => exact execHdeca_answersOnce s
  | decode => exact execDecode_answersOnce s
  | nop | rst | wrlen | rdlen | wrcw | rdcw | rdstat | unpk | henc | henca | henci | hdeci | place | extr | ovl =>
    exact answersOnce_respondOk _ (by simp) (by simp)

theorem runWord_answersOnce (w : Word) (s : State) : AnswersOnce s (runWord w s) := by
  rw [runWord]
  split
  next i _ => exact exec_answersOnce i s
  next => exact answersOnce_illegalCommand s

/-! ### The response word -/

theorem Response.word_fields (r : Response) : r.word.extractLsb' 30 2 = codeBits r.code
    ∧ r.word.extractLsb' 20 10 = 0 ∧ r.word.extractLsb' 0 20 = r.value := by
  rw [Response.word]
  refine ⟨?_, ?_, BitVec.extractLsb'_append_eq_right⟩
  · rw [BitVec.extractLsb'_append_eq_of_le (by decide)]
    exact BitVec.extractLsb'_append_eq_left
  · rw [BitVec.extractLsb'_append_eq_of_le (by decide)]
    exact BitVec.extractLsb'_append_eq_right

/-- Settles O8: every command and the answer to an illegal word give one response, by the cases of `exec`. -/
theorem everyCommandAnswersOnce : Obligations.EveryCommandAnswersOnce := by
  unfold Obligations.EveryCommandAnswersOnce
  intro s w d rest hs
  obtain ⟨t, r, ht, hr, hp⟩ := runWord_answersOnce w { s with pending := rest, draw := d }
  exact ⟨t, r, (step_command hs).trans ht, hr, hp, r.word_fields⟩

end Sys2Proof.Machine
end

section
/-!
The legal words of an opcode, operand form by operand form (spec/30_encoding.md R41, R42).
-/

namespace Sys2Proof.Machine

set_option Elab.async false

/-! ### Legal words -/

/-- The legal words with the opcode of a row are those the row accepts. -/
theorem exists_decode_ok_iff_rowAccepts {w : Word} {row : OpcodeRow} (hrow : row ∈ opcodeTable)
    (hop : opField row.matchBits = opField w) : (∃ i, decode w = .ok i) ↔ rowAccepts row w = true := by
  constructor
  · rintro ⟨i, hi⟩
    obtain ⟨row', hrow', -, hacc⟩ := rowAccepts_of_decode hi
    have hop' : opField row'.matchBits = opField w := (fields_of_match hrow' (rowAccepts_iff.mp hacc).1).1
    rwa [eq_of_opField_matchBits row hrow row' hrow' (hop.trans hop'.symm)]
  · intro hacc
    obtain ⟨i, hi, -⟩ := decode_of_rowAccepts hrow hacc
    exact ⟨i, hi⟩

section
variable (n : Nat) {op : BitVec 6} {m : String}

/-- Row `n` of the table gives the legal words of its opcode: its free operand bits and its two limits say which operands
are legal. -/
theorem legalExactly_of_row {mask : Word} {idxMax immMax j k : Nat} {fields : BitVec 5 → BitVec 20 → Prop}
    (hn : opcodeTable[n]? = some ⟨m, commandWord op 0 0, mask, idxMax, immMax⟩) (hmask : MaskFrees mask j k)
    (hfields : ∀ idx imm, (idx.toNat < 2 ^ j ∧ imm.toNat < 2 ^ k) ∧ idx.toNat ≤ idxMax ∧ imm.toNat ≤ immMax ↔
      fields idx imm) : LegalExactly op fields := by
  intro w hop
  have hrow := List.mem_of_getElem? hn
  rw [exists_decode_ok_iff_rowAccepts hrow ((Laws.opField_commandWord ..).trans hop.symm), rowAccepts_iff, ← hfields]
  constructor
  · rintro ⟨hmatch, hlimits⟩
    have hz := (fields_of_match hrow hmatch).2
    exact ⟨hz, (and_mask_eq_iff hz hop hmask).mp hmatch, hlimits⟩
  · rintro ⟨hz, hbits, hlimits⟩
    exact ⟨(and_mask_eq_iff hz hop hmask).mpr hbits, hlimits⟩

theorem legalExactly_noOperands (hn : opcodeTable[n]? = some ⟨m, commandWord op 0 0, 0xFFFFFFFF, 31, 0xFFFFF⟩) :
    LegalExactly op noOperands :=
  legalExactly_of_row n hn (by decide : MaskFrees 0xFFFFFFFF 0 0) fun idx imm => by
    rw [noOperands, eq_zero_iff_toNat_lt, eq_zero_iff_toNat_lt]; omega

theorem legalExactly_posByte (hn : opcodeTable[n]? = some ⟨m, commandWord op 0 0, 0xFC1FFF00, 21, 0xFFFFF⟩) :
    LegalExactly op fun idx imm => idx.toNat ≤ 21 ∧ imm.toNat < 2 ^ 8 :=
  legalExactly_of_row n hn (by decide : MaskFrees 0xFC1FFF00 5 8) fun idx imm => by omega

theorem legalExactly_pos (hn : opcodeTable[n]? = some ⟨m, commandWord op 0 0, 0xFC1FFFFF, 21, 0xFFFFF⟩) :
    LegalExactly op fun idx imm => idx.toNat ≤ 21 ∧ imm = 0 :=
  legalExactly_of_row n hn (by decide : MaskFrees 0xFC1FFFFF 5 0) fun idx imm => by
    rw [eq_zero_iff_toNat_lt]; omega

theorem legalExactly_len (hn : opcodeTable[n]? = some ⟨m, commandWord op 0 0, 0xFFFFFFE0, 31, 0xFFFFF⟩) :
    LegalExactly op fun idx imm => idx = 0 ∧ imm.toNat < 2 ^ 5 :=
  legalExactly_of_row n hn (by decide : MaskFrees 0xFFFFFFE0 0 5) fun idx imm => by
    rw [eq_zero_iff_toNat_lt]; omega

theorem legalExactly_chunkCw (hn : opcodeTable[n]? = some ⟨m, commandWord op 0 0, 0xFE1F0000, 31, 0xFFFFF⟩) :
    LegalExactly op fun idx imm => idx.toNat < 16 ∧ imm.toNat < 2 ^ 16 :=
  legalExactly_of_row n hn (by decide : MaskFrees 0xFE1F0000 4 16) fun idx imm => by omega

theorem legalExactly_chunk (hn : opcodeTable[n]? = some ⟨m, commandWord op 0 0, 0xFE1FFFFF, 31, 0xFFFFF⟩) :
    LegalExactly op fun idx imm => idx.toNat < 16 ∧ imm = 0 :=
  legalExactly_of_row n hn (by decide : MaskFrees 0xFE1FFFFF 4 0) fun idx imm => by
    rw [eq_zero_iff_toNat_lt]; omega

theorem legalExactly_rowBits (hn : opcodeTable[n]? = some ⟨m, commandWord op 0 0, 0xFC100000, 19, 0xFFFFF⟩) :
    LegalExactly op fun idx _ => idx.toNat ≤ 19 :=
  legalExactly_of_row n hn (by decide : MaskFrees 0xFC100000 5 20) fun idx imm => by omega

theorem legalExactly_row (hn : opcodeTable[n]? = some ⟨m, commandWord op 0 0, 0xFC1FFFFF, 19, 0xFFFFF⟩) :
    LegalExactly op fun idx imm => idx.toNat ≤ 19 ∧ imm = 0 :=
  legalExactly_of_row n hn (by decide : MaskFrees 0xFC1FFFFF 5 0) fun idx imm => by
    rw [eq_zero_iff_toNat_lt]; omega

end

end Sys2Proof.Machine
end

section
/-!
Bits as numbers, and numbers as the sum of their bits (spec/00_scope.md R2).
-/

namespace Sys2Proof.Machine

set_option Elab.async false

theorem toNat_getLsbD {n : Nat} (x : BitVec n) (i : Nat) : (x.getLsbD i).toNat = x.toNat / 2 ^ i % 2 :=
  Nat.toNat_testBit ..

theorem sum_testBit_range (x n : Nat) :
    ((List.range n).map fun b => (x.testBit b).toNat * 2 ^ b).sum = x % 2 ^ n := by
  induction n with
  | zero => simp [Nat.mod_one]
  | succ n ih =>
    rw [List.range_succ, List.map_append, List.sum_append, ih, Nat.mod_pow_succ, ← Nat.toNat_testBit]
    simp [Nat.mul_comm]

/-- R2: a sequence as a number. -/
theorem toNat_eq_sum_getLsbD {n : Nat} (x : BitVec n) :
    x.toNat = ((List.range n).map fun b => (x.getLsbD b).toNat * 2 ^ b).sum :=
  ((sum_testBit_range x.toNat n).trans (Nat.mod_eq_of_lt x.isLt)).symm

/-- R81: a byte as a number, from its bits with the most significant first. -/
theorem toNat_byteOf (f : Nat → Bool) :
    (byteOf f).toNat = ((List.range 8).map fun j => (f j).toNat * 2 ^ (7 - j)).sum := by
  rw [toNat_eq_sum_getLsbD, ← List.sum_reverse]
  refine congrArg List.sum ?_
  simp [List.range_succ, getLsbD_byteOf]

end Sys2Proof.Machine
end

section
/-!
Control and register access (spec/40_register_access.md R60 to R72): what each command answers, and which bits a write sets.
-/

namespace Sys2Proof.Machine

set_option Elab.async false

/-! ### Control -/

/-- Settles O18: `NOP` is its answer; its row leaves no operand bit free. -/
theorem nopOnlyAnswers : Obligations.NopOnlyAnswers :=
  ⟨fun _ => rfl, legalExactly_noOperands 0 rfl⟩

/-- Settles O19: the registers after `RST` are the reset's by definition, and the ports are kept. -/
theorem rstResetsEveryRegister : Obligations.RstResetsEveryRegister :=
  ⟨fun s => ⟨s.resetRegisters.respond .ok 0, rfl, ⟨rfl, rfl, rfl, rfl, rfl, rfl⟩, rfl, rfl, rfl⟩,
    legalExactly_noOperands 1 rfl⟩

/-! ### Payload -/

theorem exec_wrpay {p : BitVec 5} (v : Byte) (s : State) (hp : p.toNat ≤ 21) :
    exec (.wrpay p v) s = .next { s with pay := writeAt s.pay p.toNat v, responses := ⟨.ok, 0⟩ :: s.responses } :=
  withBytePos_of_le hp

theorem exec_rdpay {p : BitVec 5} (s : State) (hp : p.toNat ≤ 21) :
    exec (.rdpay p) s = .next (answered s .ok ((readAt s.pay p.toNat).setWidth 20)) :=
  withBytePos_of_le hp

/-- Settles O20: a write replaces one element of the register file, and a position above 21 takes the other branch of
`withBytePos`. -/
theorem payloadBytesMove : Obligations.PayloadBytesMove := by
  unfold Obligations.PayloadBytesMove
  refine ⟨fun p v s hp => ⟨_, exec_wrpay v s hp, rfl, fun k hk => readAt_writeAt _ _ _ hk⟩, fun p s hp => ?_,
    fun p v s hp => ⟨withBytePos_of_lt hp, withBytePos_of_lt hp⟩, legalExactly_posByte 2 rfl, legalExactly_pos 3 rfl⟩
  rw [exec_rdpay s hp, BitVec.ofNat_toNat]

/-- Settles O21: the length is written and read whole. -/
theorem payloadLengthMoves : Obligations.PayloadLengthMoves := by
  unfold Obligations.PayloadLengthMoves
  refine ⟨fun _ _ => rfl, fun s => ?_, legalExactly_len 4 rfl, legalExactly_noOperands 5 rfl⟩
  rw [BitVec.ofNat_toNat]
  rfl

/-! ### Message -/

theorem respondOk_withMsg (s : State) (m : Message) (x : Value) :
    respondOk (s.withMsg m) x = .next { s with msg := m, responses := ⟨.ok, x⟩ :: s.responses } := rfl

theorem exec_wrmsg {p : BitVec 5} (v : Byte) (s : State) (hp : p.toNat ≤ 21) : exec (.wrmsg p v) s =
    .next { s with msg := writeMsgByte s.msg p.toNat v, responses := ⟨.ok, 0⟩ :: s.responses } :=
  (withBytePos_of_le hp).trans (respondOk_withMsg s _ 0)

theorem exec_rdmsg {p : BitVec 5} (s : State) (hp : p.toNat ≤ 21) :
    exec (.rdmsg p) s = .next (answered s .ok ((msgByte s.msg p.toNat).setWidth 20)) :=
  withBytePos_of_le hp

theorem getLsbD_writeMsgByte_same (m : Message) {k j : Nat} (v : Byte) (hk : k ≤ 21) (hj : j < 8) :
    (writeMsgByte m k v).getLsbD (8 * k + j) = v.getLsbD (7 - j) := by
  have hdiv : (8 * k + j) / 8 = k := by omega
  have hmod : (8 * k + j) % 8 = j := by omega
  rw [getLsbD_writeMsgByte m k v (by omega), if_pos hdiv, hmod]

theorem getLsbD_writeMsgByte_other (m : Message) {k i : Nat} (v : Byte) (hi : i / 8 ≠ k) :
    (writeMsgByte m k v).getLsbD i = m.getLsbD i := by
  rcases Nat.lt_or_ge i 176 with h | h
  · rw [getLsbD_writeMsgByte m k v h, if_neg hi]
  · rw [BitVec.getLsbD_of_ge _ i h, BitVec.getLsbD_of_ge _ i h]

/-- Settles O22: a write sets the eight bits of its byte; a read is `msgByte`, which is both the sum of its bits and the
element of `unpack`. -/
theorem messageBytesMove : Obligations.MessageBytesMove := by
  unfold Obligations.MessageBytesMove
  refine ⟨fun p v s hp => ⟨_, exec_wrmsg v s hp, rfl, fun j hj => ?_, fun k hk => getLsbD_writeMsgByte_other _ _ hk⟩,
    fun p s hp => ⟨_, exec_rdmsg s hp, ?_, ?_⟩, fun p v s hp => ⟨withBytePos_of_lt hp, withBytePos_of_lt hp⟩,
    legalExactly_posByte 6 rfl, legalExactly_pos 7 rfl⟩
  · rw [getLsbD_writeMsgByte_same _ v hp hj, toNat_getLsbD]
  · rw [BitVec.toNat_setWidth_of_le (by decide)]
    exact toNat_byteOf _
  · rw [BitVec.toNat_setWidth_of_le (by decide)]
    exact congrArg BitVec.toNat (getD_messageBytes s.msg 0 (by omega)).symm

/-! ### Codewords -/

theorem exec_wrcw (ch : BitVec 4) (v : Codeword) (s : State) : exec (.wrcw ch v) s =
    .next { s with cw := writeAt s.cw ch.toNat v, responses := ⟨.ok, 0⟩ :: s.responses } := rfl

theorem exec_rdcw (ch : BitVec 4) (s : State) :
    exec (.rdcw ch) s = .next (answered s .ok ((readAt s.cw ch.toNat).setWidth 20)) := rfl

/-- Settles O23: a write replaces one codeword, bit by bit the operand; a read is the codeword as a number. -/
theorem codewordsMove : Obligations.CodewordsMove := by
  unfold Obligations.CodewordsMove
  refine ⟨fun ch v s => ⟨_, exec_wrcw ch v s, rfl, fun b _ => ?_, fun k hk hne => ?_⟩,
    fun ch s => ⟨_, exec_rdcw ch s, ?_⟩, legalExactly_chunkCw 8 rfl, legalExactly_chunk 9 rfl⟩
  · rw [readAt_writeAt _ _ _ ch.isLt, if_pos rfl, toNat_getLsbD]
  · rw [readAt_writeAt _ _ _ hk, if_neg hne]
  · rw [BitVec.toNat_setWidth_of_le (by decide)]
    exact toNat_eq_sum_getLsbD _

/-! ### Grid rows -/

theorem exec_wrrow {r : BitVec 5} (v : GridRow) (s : State) (hr : r.toNat ≤ 19) :
    exec (.wrrow r v) s = .next { s with grid := writeAt s.grid r.toNat v, responses := ⟨.ok, 0⟩ :: s.responses } :=
  withGridIdx_of_le hr

theorem exec_rdrow {r : BitVec 5} (s : State) (hr : r.toNat ≤ 19) :
    exec (.rdrow r) s = .next (answered s .ok (readAt s.grid r.toNat)) :=
  withGridIdx_of_le hr

theorem gridCell_writeAt (g : Grid) (r : Nat) (v : GridRow) {a : Nat} (c : Nat) (ha : a < 20) :
    gridCell (writeAt g r v) a c = if a = r then v.getLsbD c else gridCell g a c := by
  rw [gridCell, readAt_writeAt _ _ _ ha]
  split
  case isTrue => rfl
  case isFalse => rfl

/-- Settles O24: the row written holds the operand, whatever cells of it lie in the finder region, and no other row
changes; a read is the row as a number. -/
theorem gridRowsMove : Obligations.GridRowsMove := by
  unfold Obligations.GridRowsMove
  refine ⟨fun r v s hr => ⟨_, exec_wrrow v s hr, rfl, fun c _ => ?_, fun k hk hne c _ => ?_⟩,
    fun r s hr => ⟨_, exec_rdrow s hr, toNat_eq_sum_getLsbD _⟩,
    fun r v s hr => ⟨withGridIdx_of_lt hr, withGridIdx_of_lt hr⟩, legalExactly_rowBits 10 rfl, legalExactly_row 11 rfl⟩
  · rw [gridCell_writeAt _ _ _ _ (by omega), if_pos rfl, toNat_getLsbD]
  · rw [gridCell_writeAt _ _ _ _ hk, if_neg hne]

/-! ### Status -/

theorem getLsbD_eq_of_toNat {n i : Nat} {x : BitVec n} {b : Bool} (h : x.toNat / 2 ^ i % 2 = b.toNat) :
    x.getLsbD i = b := by
  rw [← BitVec.testBit_toNat, Nat.testBit_eq_decide_div_mod_eq, h]
  cases b <;> rfl

theorem extractLsb'_eq_of_toNat {n i k : Nat} {x : BitVec n} {y : BitVec k} (h : x.toNat / 2 ^ i % 2 ^ k = y.toNat) :
    x.extractLsb' i k = y :=
  BitVec.eq_of_toNat_eq (by rw [BitVec.extractLsb'_toNat, Nat.shiftRight_eq_div_pow, h])

section
variable (st : Stat)

/-- The seven fields fill 17 bits, so the word is their sum and not cut off. -/
theorem toNat_statWord : (statWord st).toNat = st.ptl.toNat + 2 * st.dbe.toNat + 4 * st.cor.toNat + 8 * st.ovr.toNat
    + 16 * st.syn.toNat + 256 * st.ech.toNat + 4096 * st.corr.toNat := by
  have hptl := st.ptl.toNat_lt
  have hdbe := st.dbe.toNat_lt
  have hcor := st.cor.toNat_lt
  have hovr := st.ovr.toNat_lt
  rw [statWord, BitVec.toNat_ofNat]
  omega

/-- R16: each field at its place. -/
theorem statWord_fields :
    (statWord st).getLsbD 0 = st.ptl ∧ (statWord st).getLsbD 1 = st.dbe ∧ (statWord st).getLsbD 2 = st.cor
    ∧ (statWord st).getLsbD 3 = st.ovr ∧ (statWord st).extractLsb' 4 4 = st.syn ∧ (statWord st).extractLsb' 8 4 = st.ech
    ∧ (statWord st).extractLsb' 12 5 = st.corr ∧ (statWord st).extractLsb' 17 3 = 0#3 := by
  have hword := toNat_statWord st
  have hptl := st.ptl.toNat_lt
  have hdbe := st.dbe.toNat_lt
  have hcor := st.cor.toNat_lt
  have hovr := st.ovr.toNat_lt
  refine ⟨getLsbD_eq_of_toNat ?_, getLsbD_eq_of_toNat ?_, getLsbD_eq_of_toNat ?_, getLsbD_eq_of_toNat ?_,
    extractLsb'_eq_of_toNat ?_, extractLsb'_eq_of_toNat ?_, extractLsb'_eq_of_toNat ?_, extractLsb'_eq_of_toNat ?_⟩
  case refine_8 => rw [BitVec.toNat_ofNat]; omega
  all_goals omega

end

/-- Settles O25: the word of `STAT` is the sum of the fields at their weights, so each stands at its bits. -/
theorem rdstatReadsEveryField : Obligations.RdstatReadsEveryField :=
  ⟨fun s => ⟨statWord s.stat, rfl, toNat_statWord s.stat, statWord_fields s.stat⟩, legalExactly_noOperands 12 rfl⟩

end Sys2Proof.Machine
end

section
/-!
The functions of the bitpacker and their inverses (spec/41_bitpacker.md R80 to R82, R85, R86).
-/

namespace Sys2Proof.Machine

set_option Elab.async false

/-! ### Bytes and bits -/

theorem list_ext_getD {α : Type} {xs ys : List α} (d : α) (hlen : xs.length = ys.length)
    (h : ∀ i, i < ys.length → xs.getD i d = ys.getD i d) : xs = ys :=
  List.ext_getElem hlen fun i hx hy => by rw [← List.getD_eq_getElem xs d hx, ← List.getD_eq_getElem ys d hy, h i hy]

theorem getLsbD_byteOf_msbFirst (f : Nat → Bool) {j : Nat} (hj : j < 8) : (byteOf f).getLsbD (7 - j) = f j := by
  have hrev : 7 - (7 - j) = j := by omega
  have hlt : 7 - j < 8 := by omega
  rw [getLsbD_byteOf, hrev, decide_eq_true hlt, Bool.true_and]

theorem byteOf_bits_msbFirst (v : Byte) : byteOf (fun j => v.getLsbD (7 - j)) = v := by
  refine BitVec.eq_of_getLsbD_eq fun i hi => ?_
  have hrev : 7 - (7 - i) = i := by omega
  rw [getLsbD_byteOf, hrev, decide_eq_true hi, Bool.true_and]

/-- R82: bytes survive `pack` and `unpack`. -/
theorem unpack_pack (bytes : List Byte) : unpack (pack bytes) = bytes := by
  have hlen : ((pack bytes).length + 7) / 8 = bytes.length := by rw [length_pack]; omega
  refine list_ext_getD 0 ((length_unpack _).trans hlen) fun k hk => ?_
  rw [getD_unpack _ _ (by omega), byteOf_congr fun j hj => getD_pack bytes k hj, byteOf_bits_msbFirst]

/-- R81, R82: `pack` after `unpack` gives the bits back, and zeros in the padding. -/
theorem getD_pack_unpack (bits : List Bool) {i : Nat} (hi : i / 8 < (bits.length + 7) / 8) :
    (pack (unpack bits)).getD i false = bits.getD i false := by
  have hmod : i % 8 < 8 := Nat.mod_lt i (by decide)
  calc (pack (unpack bits)).getD i false
    _ = (pack (unpack bits)).getD (8 * (i / 8) + i % 8) false := by rw [Nat.div_add_mod]
    _ = (byteOf fun j => bits.getD (8 * (i / 8) + j) false).getLsbD (7 - i % 8) := by
      rw [getD_pack _ _ hmod, getD_unpack _ _ hi]
    _ = bits.getD i false := by rw [getLsbD_byteOf_msbFirst _ hmod, Nat.div_add_mod]

/-- R82: bits in whole bytes survive `unpack` and `pack`. -/
theorem pack_unpack {bits : List Bool} (h : bits.length % 8 = 0) : pack (unpack bits) = bits := by
  have hlen : (pack (unpack bits)).length = bits.length := by rw [length_pack, length_unpack]; omega
  exact list_ext_getD false hlen fun i hi => getD_pack_unpack bits (by omega)

/-- Settles O26: each bit of `pack` and each byte of `unpack` is read off its law, and the two readings undo each other. -/
theorem packAndUnpack : Obligations.PackAndUnpack := by
  unfold Obligations.PackAndUnpack
  refine ⟨fun bytes => ⟨length_pack bytes, fun k _ j hj => ?_⟩, fun bits => ⟨length_unpack bits, fun k hk => ?_⟩,
    unpack_pack, fun _ => pack_unpack⟩
  · rw [getD_pack bytes k hj, toNat_getLsbD]
  · rw [getD_unpack bits 0 hk, toNat_byteOf]

/-! ### The message and its chunks -/

theorem getLsbD_readAt_split (m : Message) {i j : Nat} (hi : i < 16) (hj : j < 11) :
    (readAt (split m) i).getLsbD j = m.getLsbD (11 * i + j) := by
  rw [readAt_split m hi, getLsbD_chunkOf, decide_eq_true hj, Bool.true_and]

theorem getLsbD_join_chunk (d : Vector Chunk 16) {i j : Nat} (hi : i < 16) (hj : j < 11) :
    (join d).getLsbD (11 * i + j) = (readAt d i).getLsbD j := by
  have hdiv : (11 * i + j) / 11 = i := by omega
  have hmod : (11 * i + j) % 11 = j := by omega
  rw [getLsbD_join d (by omega), hdiv, hmod]

/-- R86: `join` undoes `split`. -/
theorem join_split (m : Message) : join (split m) = m := by
  refine BitVec.eq_of_getLsbD_eq fun k hk => ?_
  rw [getLsbD_join _ hk, getLsbD_readAt_split m (by omega) (by omega), Nat.div_add_mod]

/-- R86: `split` undoes `join`. -/
theorem split_join (d : Vector Chunk 16) : split (join d) = d := by
  refine readAt_ext fun i hi => BitVec.eq_of_getLsbD_eq fun j hj => ?_
  rw [getLsbD_readAt_split _ hi hj, getLsbD_join_chunk d hi hj]

/-- Settles O27: both functions move bit `11·i + j` of the message to and from bit `j` of chunk `i`. -/
theorem splitAndJoin : Obligations.SplitAndJoin :=
  ⟨fun m _ hi _ hj => getLsbD_readAt_split m hi hj, fun d _ hi _ hj => getLsbD_join_chunk d hi hj, join_split, split_join⟩

end Sys2Proof.Machine
end

section
/-!
The bitpacker's commands (spec/41_bitpacker.md R89, R90): what each answers, and what it writes.
-/

namespace Sys2Proof.Machine

set_option Elab.async false

/-! ### `BUILD` -/

theorem fillerValue_eq (s : State) : fillerValue s = BitVec.ofNat 20 (168 - 8 * s.plen.toNat) := by
  have hcount : fillerCount s.plen.toNat = 168 - 8 * s.plen.toNat := by simp only [fillerCount, Config.msgBits]; omega
  rw [fillerValue, hcount]

/-- R89: a `BUILD` that has a message writes it, clears `PTL` and answers the number of bits drawn. -/
theorem exec_build_of_some {s : State} {m : Message} (h : buildMessage s.pay s.plen.toNat s.draw = some m) :
    exec .build s = .next { s with
      msg := m, stat := { s.stat with ptl := false },
      responses := ⟨.ok, BitVec.ofNat 20 (168 - 8 * s.plen.toNat)⟩ :: s.responses } := by
  rw [exec, execBuild, buildOp_eq_some h, fillerValue_eq]
  rfl

/-- R89, R171: `BUILD` of a length above 21 is PayloadTooLarge. -/
theorem exec_build_of_lt {s : State} (h : 21 < s.plen.toNat) : exec .build s = tooLargeAnswer s := by
  rw [exec, execBuild, buildOp_eq_none (buildMessage_eq_none h)]
  rfl

/-- Settles O29: with `PLEN` at most 21 there is a message, whose bits are those of R83; above 21 there is none. -/
theorem buildAssemblesTheMessage : Obligations.BuildAssemblesTheMessage := by
  unfold Obligations.BuildAssemblesTheMessage
  refine ⟨fun s hs => ?_, fun _ => exec_build_of_lt, legalExactly_noOperands 13 rfl⟩
  obtain ⟨m, hm, hbits⟩ := buildMessage_eq_some s.pay s.draw hs
  exact ⟨_, exec_build_of_some hm, rfl, hbits⟩

/-! ### `UNPK` -/

theorem exec_unpk (s : State) :
    exec .unpk s = .next ((unpkOp s).respond .ok (BitVec.ofNat 20 (termScan (messageBytes s.msg)))) := rfl

theorem readAt_unpkOp_pay (s : State) {k : Nat} (hk : k < 22) :
    readAt (unpkOp s).pay k = (messageBytes s.msg).getD k 0 :=
  readAt_tabulate _ hk

theorem termScan_messageBytes_le (m : Message) : termScan (messageBytes m) ≤ 22 :=
  length_messageBytes m ▸ termScan_le _

/-- The scan's result fits `PLEN`. -/
theorem toNat_unpkOp_plen (s : State) : (unpkOp s).plen.toNat = termScan (messageBytes s.msg) :=
  (BitVec.toNat_ofNat ..).trans (Nat.mod_eq_of_lt (by have := termScan_messageBytes_le s.msg; omega))

/-- Settles O31: the payload bytes are those of the message, and `PLEN` is the scan of them, which stops at the first
zero byte. -/
theorem unpkDisassemblesTheMessage : Obligations.UnpkDisassemblesTheMessage := by
  unfold Obligations.UnpkDisassemblesTheMessage
  refine ⟨fun s => ⟨_, exec_unpk s, ?_⟩, legalExactly_noOperands 14 rfl⟩
  have hle := termScan_messageBytes_le s.msg
  simp only [State.respond_pay, State.respond_plen, toNat_unpkOp_plen]
  refine ⟨rfl, fun k hk j hj => ?_, hle, fun k hk => ?_, fun hlt => ?_⟩
  · rw [readAt_unpkOp_pay s hk, getD_messageBytes s.msg 0 hk, getLsbD_msgByte s.msg k hj]
  · rw [readAt_unpkOp_pay s (by omega)]
    exact termScan_before hk
  · rw [readAt_unpkOp_pay s hlt]
    exact termScan_at (by rwa [length_messageBytes])

end Sys2Proof.Machine
end

section
/-!
The encoder function (spec/42_hamming_encoder.md R100): which bits each of its writes sets and reads, so that the relations of
the steps hold between the bits of the finished codeword.
-/

namespace Sys2Proof.Machine

set_option Elab.async false

/-! ### One bit written -/

theorem getLsbD_setBit_same {n i : Nat} (x : BitVec n) (b : Bool) (hi : i < n) : (setBit x i b).getLsbD i = b := by
  rw [getLsbD_setBit, if_pos rfl, decide_eq_true hi, Bool.true_and]

theorem getLsbD_setBit_of_ne {n i k : Nat} (x : BitVec n) (b : Bool) (hk : k ≠ i) :
    (setBit x i b).getLsbD k = x.getLsbD k := by
  rw [getLsbD_setBit, if_neg hk, Bool.and_eq_right_iff_imp]
  exact fun h => decide_eq_true (BitVec.lt_of_getLsbD h)

theorem parityAt_congr {n : Nat} {x y : BitVec n} {l : List Nat} (h : ∀ i ∈ l, x.getLsbD i = y.getLsbD i) :
    parityAt x l = parityAt y l :=
  congrArg xorAll (List.map_congr_left h)

/-! ### Data bits -/

/-- The data indices are the indices of a codeword that are neither 0 nor a parity position, and each holds its own data bit. -/
theorem dataIdx_getD : ∀ j, j < 11 → Config.dataIdx.getD j 0 < 16 ∧ Config.dataIdx.getD j 0 ≠ 0
    ∧ Config.dataIdx.getD j 0 ∉ Config.parityIdx ∧ Config.dataIdx.idxOf? (Config.dataIdx.getD j 0) = some j := by decide

theorem getLsbD_placeData (d : Chunk) {j : Nat} (hj : j < 11) :
    (placeData d).getLsbD (Config.dataIdx.getD j 0) = d.getLsbD j := by
  obtain ⟨hlt, -, -, hidx⟩ := dataIdx_getD j hj
  rw [placeData, getLsbD_ofBits, hidx, decide_eq_true hlt, Bool.true_and]

/-! ### Parity bits -/

/-- The indices whose parity bit `p` holds: those it covers, without itself. -/
def parityInputs (p : Nat) : List Nat := (covered p).filter fun i => i != p

theorem placeParity_eq (cw : Codeword) (p : Nat) : placeParity cw p = setBit cw p (parityAt cw (parityInputs p)) := rfl

section
variable {ps : List Nat}

theorem getLsbD_foldl_placeParity_of_notMem (cw : Codeword) {k : Nat} (hk : k ∉ ps) :
    (ps.foldl placeParity cw).getLsbD k = cw.getLsbD k := by
  induction ps generalizing cw with
  | nil => rfl
  | cons q ps ih =>
    rw [List.mem_cons, not_or] at hk
    rw [List.foldl_cons, ih _ hk.2, placeParity_eq, getLsbD_setBit_of_ne _ _ hk.1]

/-- Where no position in `ps` is an input of `p`, the order of the writes does not matter: bit `p` is the parity of its inputs
before them all. -/
theorem getLsbD_foldl_placeParity_of_mem (cw : Codeword) {p : Nat} (hp : p < 16) (hmem : p ∈ ps)
    (hinputs : ∀ q ∈ ps, q ∉ parityInputs p) :
    (ps.foldl placeParity cw).getLsbD p = parityAt cw (parityInputs p) := by
  induction ps generalizing cw with
  | nil => exact absurd hmem List.not_mem_nil
  | cons q ps ih =>
    rw [List.forall_mem_cons] at hinputs
    obtain ⟨hq, hps⟩ := hinputs
    rw [List.foldl_cons]
    by_cases hlater : p ∈ ps
    · rw [ih _ hlater hps, placeParity_eq]
      exact parityAt_congr fun i hi => getLsbD_setBit_of_ne _ _ (ne_of_mem_of_not_mem hi hq)
    · obtain rfl : p = q := (List.mem_cons.mp hmem).resolve_right hlater
      rw [getLsbD_foldl_placeParity_of_notMem _ hlater, placeParity_eq, getLsbD_setBit_same _ _ hp]

end

/-! ### The codeword -/

/-- Steps 1 and 2 of R100. -/
def placeParities (d : Chunk) : Codeword := Config.parityIdx.foldl placeParity (placeData d)

theorem henc_eq (d : Chunk) : henc d =
    setBit (placeParities d) 0 (parityAt (placeParities d) ((List.range 16).filter fun i => i != 0)) := rfl

/-- The last step writes bit 0 only. -/
theorem getLsbD_henc_of_ne_zero (d : Chunk) {k : Nat} (hk : k ≠ 0) :
    (henc d).getLsbD k = (placeParities d).getLsbD k := by
  rw [henc_eq, getLsbD_setBit_of_ne _ _ hk]

/-- R100, step 1. -/
theorem getLsbD_henc_dataIdx (d : Chunk) {j : Nat} (hj : j < 11) :
    (henc d).getLsbD (Config.dataIdx.getD j 0) = d.getLsbD j := by
  obtain ⟨-, hzero, hparity, -⟩ := dataIdx_getD j hj
  rw [getLsbD_henc_of_ne_zero d hzero, placeParities, getLsbD_foldl_placeParity_of_notMem _ hparity, getLsbD_placeData d hj]

/-- No parity position covers another one, and none covers 0. -/
theorem parityIdx_inputs : ∀ p ∈ Config.parityIdx, p < 16 ∧ p ≠ 0 ∧ (∀ q ∈ Config.parityIdx, q ∉ parityInputs p)
    ∧ 0 ∉ parityInputs p := by decide

/-- R100, step 2. -/
theorem getLsbD_henc_parityIdx (d : Chunk) {p : Nat} (hp : p ∈ Config.parityIdx) :
    (henc d).getLsbD p = parityAt (henc d) (parityInputs p) := by
  obtain ⟨hlt, hne, hinputs, hzero⟩ := parityIdx_inputs p hp
  calc (henc d).getLsbD p
    _ = (placeParities d).getLsbD p := getLsbD_henc_of_ne_zero d hne
    _ = parityAt (placeData d) (parityInputs p) := getLsbD_foldl_placeParity_of_mem _ hlt hp hinputs
    _ = parityAt (placeParities d) (parityInputs p) := parityAt_congr fun i hi =>
      (getLsbD_foldl_placeParity_of_notMem _ fun hmem => hinputs i hmem hi).symm
    _ = parityAt (henc d) (parityInputs p) := parityAt_congr fun i hi =>
      (getLsbD_henc_of_ne_zero d (ne_of_mem_of_not_mem hi hzero)).symm

/-- R100, step 3. -/
theorem getLsbD_henc_zero (d : Chunk) :
    (henc d).getLsbD 0 = parityAt (henc d) ((List.range 16).filter fun i => i != 0) := by
  rw [henc_eq, getLsbD_setBit_same _ _ (by decide)]
  exact parityAt_congr fun i hi => (getLsbD_setBit_of_ne _ _ (by simpa using (List.mem_filter.mp hi).2)).symm

theorem parityInputs_eq : ∀ p ∈ Config.parityIdx,
    parityInputs p = (List.range 16).filter fun i => decide (1 ≤ i ∧ i &&& p ≠ 0 ∧ i ≠ p) := by decide

/-- Settles O32: each step writes bits that no later step touches and that are not among its own inputs, so what it makes
them still holds of the finished codeword. -/
theorem encoderFollowsItsSteps : Obligations.EncoderFollowsItsSteps := by
  unfold Obligations.EncoderFollowsItsSteps
  refine fun d => ⟨fun j hj => getLsbD_henc_dataIdx d hj, fun p hp => ?_, getLsbD_henc_zero d⟩
  rw [← parityInputs_eq p hp]
  exact getLsbD_henc_parityIdx d hp

end Sys2Proof.Machine
end

section
/-!
The encoder's commands (spec/42_hamming_encoder.md R103 to R105): what each answers, and which codewords it writes.
-/

namespace Sys2Proof.Machine

set_option Elab.async false

theorem messageChunk_eq_chunkOf (m : Message) (i : Nat) : messageChunk m i = chunkOf m i := by
  refine BitVec.eq_of_getLsbD_eq fun j _ => ?_
  rw [messageChunk, getLsbD_ofBits, getLsbD_chunkOf]

theorem exec_henc (ch : BitVec 4) (s : State) : exec (.henc ch) s = .next { s with
    cw := writeAt s.cw ch.toNat (henc (chunkOf s.msg ch.toNat)),
    responses := ⟨.ok, (henc (chunkOf s.msg ch.toNat)).setWidth 20⟩ :: s.responses } := rfl

theorem exec_henca (s : State) : exec .henca s = .next ((hencaOp s).respond .ok 0) := rfl

theorem exec_henci (v : Chunk) (s : State) :
    exec (.henci v) s = .next (answered s .ok ((henc v).setWidth 20)) := rfl

/-- Settles O35: `HENC` writes one element of the register file, the codeword of the 11 message bits of its chunk. -/
theorem hencEncodesOneChunk : Obligations.HencEncodesOneChunk := by
  unfold Obligations.HencEncodesOneChunk
  refine ⟨fun ch s => ⟨_, exec_henc ch s, ?_⟩, legalExactly_chunk 15 rfl⟩
  rw [messageChunk_eq_chunkOf, BitVec.ofNat_toNat]
  exact ⟨rfl, fun k hk => readAt_writeAt _ _ _ hk⟩

theorem readAt_hencaOp_cw (s : State) {ch : Nat} (hch : ch < 16) :
    readAt (hencaOp s).cw ch = henc (messageChunk s.msg ch) := by
  rw [messageChunk_eq_chunkOf, ← readAt_split s.msg hch]
  exact readAt_tabulate _ hch

/-- R21: after `HENCA` the data bits of the codewords are the message bits. -/
theorem partition_hencaOp (s : State) : Partition (hencaOp s) := by
  intro i hi j hj
  rw [readAt_hencaOp_cw s hi, getLsbD_henc_dataIdx _ hj, messageChunk_eq_chunkOf, getLsbD_chunkOf, decide_eq_true hj,
    Bool.true_and]
  rfl

/-- Settles O36: `HENCA` makes the register file anew, each codeword from the chunk of its number, where R100 leaves the data
bits readable. -/
theorem hencaEncodesEveryChunk : Obligations.HencaEncodesEveryChunk := by
  unfold Obligations.HencaEncodesEveryChunk
  exact ⟨fun s => ⟨_, exec_henca s, rfl, fun _ => readAt_hencaOp_cw s, partition_hencaOp s⟩, legalExactly_noOperands 16 rfl⟩

theorem legalExactly_data (n : Nat) {op : BitVec 6} {m : String}
    (hn : opcodeTable[n]? = some ⟨m, commandWord op 0 0, 0xFFFFF800, 31, 0xFFFFF⟩) :
    LegalExactly op fun idx imm => idx = 0 ∧ imm.toNat < 2 ^ 11 :=
  legalExactly_of_row n hn (by decide : MaskFrees 0xFFFFF800 0 11) fun idx imm => by
    rw [eq_zero_iff_toNat_lt]; omega

/-- Settles O37: `HENCI` is its answer, the codeword as a number; only the 11 bits of the chunk are free in its word. -/
theorem henciOnlyAnswers : Obligations.HenciOnlyAnswers := by
  unfold Obligations.HenciOnlyAnswers
  refine ⟨fun v s => ?_, legalExactly_data 17 rfl⟩
  rw [exec_henci, BitVec.ofNat_toNat]

end Sys2Proof.Machine
end

section
/-!
The decoder function (spec/43_hamming_decoder.md R110 to R113): the checks bit by bit, and the four rows of the table as one
equation.
-/

namespace Sys2Proof.Machine

set_option Elab.async false

/-! ### Checks -/

theorem getLsbD_or_positions : ∀ a b c d : Bool,
    let x := (if a then 1#4 else 0#4) ||| (if b then 2#4 else 0#4) ||| (if c then 4#4 else 0#4) ||| (if d then 8#4 else 0#4)
    x.getLsbD 0 = a ∧ x.getLsbD 1 = b ∧ x.getLsbD 2 = c ∧ x.getLsbD 3 = d := by decide

/-- R110: each check stands at its own bit of the syndrome. -/
theorem getLsbD_syndrome (r : Codeword) : (syndrome r).getLsbD 0 = checkBit r 1 ∧ (syndrome r).getLsbD 1 = checkBit r 2
    ∧ (syndrome r).getLsbD 2 = checkBit r 4 ∧ (syndrome r).getLsbD 3 = checkBit r 8 :=
  getLsbD_or_positions ..

/-- R101: the covered sets. -/
theorem covered_eq : covered 1 = [1, 3, 5, 7, 9, 11, 13, 15] ∧ covered 2 = [2, 3, 6, 7, 10, 11, 14, 15]
    ∧ covered 4 = [4, 5, 6, 7, 12, 13, 14, 15] ∧ covered 8 = [8, 9, 10, 11, 12, 13, 14, 15] := by decide

theorem checkBit_eq_of_covered (r : Codeword) {p a b c d e f g h : Nat} (hp : covered p = [a, b, c, d, e, f, g, h]) :
    checkBit r p = (r.getLsbD a ^^ r.getLsbD b ^^ r.getLsbD c ^^ r.getLsbD d
      ^^ r.getLsbD e ^^ r.getLsbD f ^^ r.getLsbD g ^^ r.getLsbD h) := by
  simp only [checkBit, hp, parityAt, List.map_cons, List.map_nil, xorAll_cons, xorAll_nil, Bool.xor_false, Bool.xor_assoc]

/-! ### The table -/

theorem setBit_not_eq_flipBit (r : Codeword) {k : Nat} (hk : k < 16) : setBit r k (!r.getLsbD k) = flipBit r k := by
  refine BitVec.eq_of_getLsbD_eq fun i hi => ?_
  rw [getLsbD_setBit, flipBit, BitVec.getLsbD_xor, BitVec.getLsbD_twoPow, decide_eq_true hi, Bool.true_and]
  by_cases h : i = k
  · rw [if_pos h, h, decide_eq_true hk, decide_eq_true rfl, Bool.and_true, Bool.xor_true]
  · rw [if_neg h, decide_eq_false (Ne.symm h), Bool.and_false, Bool.xor_false]

/-- The received word after any correction: an odd parity flips the bit the syndrome points at, which is index 0 where the
syndrome is 0. -/
def correctedWord (r : Codeword) : Codeword := if overall r then flipBit r (syndrome r).toNat else r

/-- R112, R113: the four rows at once. The parity decides whether the word is corrected, the syndrome where; a syndrome with an
even parity is a double error. -/
theorem hdec_eq (r : Codeword) :
    hdec r = verdictOf r (correctedWord r) (overall r) (!overall r && decide (syndrome r ≠ 0)) := by
  rw [hdec, correctedWord, ← setBit_not_eq_flipBit r (syndrome r).isLt, decide_not]
  cases overall r <;> cases hs : decide (syndrome r = 0)
  case true.true => rw [of_decide_eq_true hs]; rfl
  all_goals rfl

section
variable (r : Codeword)

theorem overall_hdec : (hdec r).overall = overall r := by rw [hdec_eq]; rfl

theorem syndrome_hdec : (hdec r).syndrome = syndrome r := by rw [hdec_eq]; rfl

theorem corrected_hdec : (hdec r).corrected = overall r := by rw [hdec_eq]; rfl

theorem doubleError_hdec : (hdec r).doubleError = (!overall r && decide (syndrome r ≠ 0)) := by rw [hdec_eq]; rfl

theorem ok_hdec : (hdec r).ok = !(hdec r).doubleError := by rw [hdec_eq]; rfl

theorem fixed_hdec : (hdec r).fixed = correctedWord r := by rw [hdec_eq]; rfl

theorem data_hdec : (hdec r).data = extractData (hdec r).fixed := by rw [hdec_eq]; rfl

end

theorem correctedWord_of_overall {r : Codeword} (ho : overall r = true) :
    correctedWord r = flipBit r (syndrome r).toNat :=
  if_pos ho

theorem correctedWord_of_not_overall {r : Codeword} (ho : overall r = false) : correctedWord r = r :=
  if_neg (by rw [ho]; decide)

theorem overall_of_doubleError {r : Codeword} (h : (hdec r).doubleError = true) : overall r = false := by
  rw [doubleError_hdec, Bool.and_eq_true, Bool.not_eq_true'] at h
  exact h.1

/-! ### Data -/

theorem getLsbD_extractData (r : Codeword) {j : Nat} (hj : j < 11) :
    (extractData r).getLsbD j = r.getLsbD (Config.dataIdx.getD j 0) := by
  have hlen : j < Config.dataIdx.length := hj
  rw [extractData, getLsbD_ofSeq, decide_eq_true hj, Bool.true_and, List.getD_eq_getElem _ _ (by simpa using hj),
    List.getElem_map, List.getD_eq_getElem _ _ hlen]

/-- Settles O38: the syndrome holds the four checks, and the rows of the table are the four cases of `hdec_eq`. -/
theorem decoderTable : Obligations.DecoderTable := by
  unfold Obligations.DecoderTable
  intro r
  obtain ⟨hs0, hs1, hs2, hs3⟩ := getLsbD_syndrome r
  obtain ⟨hc1, hc2, hc4, hc8⟩ := covered_eq
  refine ⟨hs0.trans (checkBit_eq_of_covered r hc1), hs1.trans (checkBit_eq_of_covered r hc2),
    hs2.trans (checkBit_eq_of_covered r hc4), hs3.trans (checkBit_eq_of_covered r hc8), rfl, overall_hdec r, syndrome_hdec r,
    fun ho hs => ?_, fun ho hs => ?_, fun ho hs => ?_, fun ho hs => ?_, fun j hj => ?_, ok_hdec r⟩
  case refine_5 => rw [data_hdec, getLsbD_extractData _ hj]
  all_goals rw [fixed_hdec, corrected_hdec, doubleError_hdec, ho]
  · exact ⟨correctedWord_of_not_overall ho, rfl, by simp [hs]⟩
  · exact ⟨(correctedWord_of_overall ho).trans (by rw [hs]; rfl), rfl, rfl⟩
  · exact ⟨correctedWord_of_overall ho, rfl, rfl⟩
  · exact ⟨correctedWord_of_not_overall ho, rfl, decide_eq_true hs⟩

end Sys2Proof.Machine
end

section
/-!
The verdict word (spec/43_hamming_decoder.md R119) and the decoder's commands (R120 to R122): what each answers, and which
message bits and `STAT` fields it writes.
-/

namespace Sys2Proof.Machine

set_option Elab.async false

/-! ### The verdict word -/

section
variable (v : Verdict)

/-- The six fields fill 19 bits, so the word is their sum and not cut off. -/
theorem toNat_verdictWord : (verdictWord v).toNat = v.data.toNat + 2 ^ 11 * v.corrected.toNat + 2 ^ 12 * v.doubleError.toNat
    + 2 ^ 13 * v.overall.toNat + 2 ^ 14 * v.syndrome.toNat + 2 ^ 18 * v.ok.toNat := by
  have hcorrected := v.corrected.toNat_lt
  have hdouble := v.doubleError.toNat_lt
  have hoverall := v.overall.toNat_lt
  have hok := v.ok.toNat_lt
  rw [verdictWord, BitVec.toNat_ofNat]
  omega

/-- R119: each field at its place. -/
theorem verdictWord_fields :
    (verdictWord v).extractLsb' 0 11 = v.data ∧ (verdictWord v).getLsbD 11 = v.corrected
    ∧ (verdictWord v).getLsbD 12 = v.doubleError ∧ (verdictWord v).getLsbD 13 = v.overall
    ∧ (verdictWord v).extractLsb' 14 4 = v.syndrome ∧ (verdictWord v).getLsbD 18 = v.ok
    ∧ (verdictWord v).getLsbD 19 = false := by
  have hword := toNat_verdictWord v
  have hcorrected := v.corrected.toNat_lt
  have hdouble := v.doubleError.toNat_lt
  have hoverall := v.overall.toNat_lt
  have hok := v.ok.toNat_lt
  refine ⟨extractLsb'_eq_of_toNat ?_, getLsbD_eq_of_toNat ?_, getLsbD_eq_of_toNat ?_, getLsbD_eq_of_toNat ?_,
    extractLsb'_eq_of_toNat ?_, getLsbD_eq_of_toNat ?_, getLsbD_eq_of_toNat ?_⟩
  case refine_7 => rw [Bool.toNat_false]; omega
  all_goals omega

end

/-! ### `HDECI` and `HDEC` -/

theorem exec_hdeci (v : Codeword) (s : State) : exec (.hdeci v) s = .next (answered s .ok (verdictWord (hdec v))) := rfl

/-- R120: `HDEC` writes the five verdict fields, and `MSG` unless the verdict is a double error. -/
theorem exec_hdec (ch : BitVec 4) (s : State) {v : Verdict} (hv : hdec (readAt s.cw ch.toNat) = v) :
    exec (.hdec ch) s = .next { s with
      msg := if v.doubleError then s.msg else writeChunk s.msg ch.toNat v.data,
      stat := { s.stat with
        dbe := v.doubleError, cor := v.corrected, ovr := v.overall, syn := v.syndrome, ech := ch },
      responses := ⟨.ok, verdictWord v⟩ :: s.responses } := by
  rw [exec, execHdec, hv, Stat.withVerdict, BitVec.ofNat_toNat, BitVec.setWidth_eq]
  cases v.doubleError
  case false => exact respondOk_withMsg ..
  case true => rfl

theorem legalExactly_cw (n : Nat) {op : BitVec 6} {m : String}
    (hn : opcodeTable[n]? = some ⟨m, commandWord op 0 0, 0xFFFF0000, 31, 0xFFFFF⟩) :
    LegalExactly op fun idx imm => idx = 0 ∧ imm.toNat < 2 ^ 16 :=
  legalExactly_of_row n hn (by decide : MaskFrees 0xFFFF0000 0 16) fun idx imm => by
    rw [eq_zero_iff_toNat_lt]; omega

/-- Settles O43: the verdict word is the sum of the outputs at their weights, so each stands at its bits; both commands answer
it, and `HDECI` is nothing but the answer. -/
theorem hdeciOnlyAnswers : Obligations.HdeciOnlyAnswers := by
  unfold Obligations.HdeciOnlyAnswers
  refine ⟨exec_hdeci, fun v => ?_, fun ch s => ⟨_, exec_hdec ch s rfl, rfl⟩, legalExactly_cw 20 rfl⟩
  obtain ⟨hdata, hcorrected, hdouble, hoverall, hsyndrome, hok, htop⟩ := verdictWord_fields v
  exact ⟨hdata, hcorrected, hdouble, hoverall, hsyndrome, hok, htop, toNat_verdictWord v⟩

/-- Settles O44: the two branches of `HDEC` differ in `MSG` only, where the one without a double error writes a chunk. -/
theorem hdecDecodesOneChunk : Obligations.HdecDecodesOneChunk := by
  unfold Obligations.HdecDecodesOneChunk
  refine ⟨fun ch s => ⟨_, exec_hdec ch s rfl, rfl, fun h => if_pos h, fun h k hk => ?_⟩, legalExactly_chunk 18 rfl⟩
  rw [h, ← getLsbD_writeChunk _ _ _ hk]
  rfl

/-! ### `HDECA` -/

/-- R86: bit `k` of the message joined from the data of all chunks. -/
theorem getLsbD_joinList_dataBefore (cws : Codewords) {k : Nat} (hk : k < 176) :
    (joinList (dataBefore cws 16)).getLsbD k = (hdec (readAt cws (k / 11))).data.getLsbD (k % 11) := by
  have hchunk : k / 11 < 16 := by omega
  rw [joinList, getLsbD_join _ hk, readAt_tabulate _ hchunk, dataBefore, getD_map_range, if_pos hchunk]

theorem toNat_corr_correctedBefore (cws : Codewords) {n : Nat} (hn : n ≤ 16) :
    (BitVec.ofNat 5 (correctedBefore cws n)).toNat = correctedBefore cws n :=
  (BitVec.toNat_ofNat ..).trans (Nat.mod_eq_of_lt (by have := correctedBefore_le cws n; omega))

theorem respondOk_withMsg_withStat (s : State) (m : Message) (st : Stat) (x : Value) :
    respondOk ((s.withMsg m).withStat st) x =
      .next { s with msg := m, stat := st, responses := ⟨.ok, x⟩ :: s.responses } := rfl

/-- R121 on success: chunk 15 is the last one examined, and its verdict is no double error. -/
theorem exec_hdeca_of_noDoubleError {s : State} (h : NoDoubleError s.cw) : exec .hdeca s = .next { s with
    msg := joinList (dataBefore s.cw 16),
    stat := { s.stat with
      dbe := false, cor := (hdec (readAt s.cw 15)).corrected, ovr := (hdec (readAt s.cw 15)).overall,
      syn := (hdec (readAt s.cw 15)).syndrome, ech := 15, corr := BitVec.ofNat 5 (correctedBefore s.cw 16) },
    responses := ⟨.ok, BitVec.ofNat 20 (correctedBefore s.cw 16)⟩ :: s.responses } := by
  have hlast := h 15 (by decide)
  rw [exec, execHdeca, scanChunks_accepted h, ← hlast]
  exact respondOk_withMsg_withStat ..

/-- R121 on rejection: a double error has an even parity, so its `COR` and `OVR` are 0. -/
theorem exec_hdeca_of_firstDoubleError {s : State} {ch : Nat} (h : FirstDoubleError s.cw ch) :
    exec .hdeca s = .next (answered
      { s with stat := { s.stat with
          dbe := true, cor := false, ovr := false, syn := (hdec (readAt s.cw ch)).syndrome,
          ech := BitVec.ofNat 4 ch, corr := BitVec.ofNat 5 (correctedBefore s.cw ch) } }
      .doubleBitErrorRejected (BitVec.ofNat 20 ch)) := by
  have ⟨_, hdouble, _⟩ := h
  have heven := overall_of_doubleError hdouble
  rw [exec, execHdeca, scanChunks_rejected h]
  simp only [takeFault_doubleBitErrorRejected, Stat.withVerdict, hdouble, corrected_hdec, overall_hdec, heven]
  rfl

/-- Settles O45: a scan ends with the data of all sixteen chunks or at the first double error, and each end is one answer. -/
theorem hdecaScansTheChunks : Obligations.HdecaScansTheChunks := by
  unfold Obligations.HdecaScansTheChunks
  refine ⟨fun s h => ⟨_, exec_hdeca_of_noDoubleError h, rfl, fun _ => getLsbD_joinList_dataBefore s.cw, ?_⟩,
    fun _ _ => exec_hdeca_of_firstDoubleError, legalExactly_noOperands 19 rfl⟩
  exact toNat_corr_correctedBefore s.cw (Nat.le_refl 16)

end Sys2Proof.Machine
end

section
/-!
The mapper's commands (spec/44_chunk_grid_mapper.md R130 to R137): the cell of every codeword bit, and what `PLACE` and `EXTR`
write.
-/

namespace Sys2Proof.Machine

set_option Elab.async false

/-! ### The cell of a codeword bit -/

/-- R131 in numbers. -/
theorem cellOf_eq (b ch : Nat) : cellOf b ch = (4 + 4 * (b / 4) + ch / 4, 4 + 4 * (b % 4) + ch % 4) := rfl

section
variable {b ch : Nat} (hb : b < 16) (hch : ch < 16)
include hb hch

/-- R131: a codeword bit has its cell in the data region. -/
theorem cellOf_dataRegion :
    4 ≤ (cellOf b ch).1 ∧ (cellOf b ch).1 < 20 ∧ 4 ≤ (cellOf b ch).2 ∧ (cellOf b ch).2 < 20 := by
  simp only [cellOf_eq]; omega

/-- R132: `bit_of` undoes `cell_of`. -/
theorem bitOf_cellOf : bitOf (cellOf b ch).1 (cellOf b ch).2 = (b, ch) := by
  simp only [bitOf, cellOf_eq, Prod.mk.injEq]; omega

/-- R133: `place` writes each codeword bit to its cell. -/
theorem gridCell_placeCells_cellOf (cws : Codewords) (g : Grid) :
    gridCell (placeCells cws g) (cellOf b ch).1 (cellOf b ch).2 = (readAt cws ch).getLsbD b := by
  obtain ⟨hr, hr', hc, hc'⟩ := cellOf_dataRegion hb hch
  rw [gridCell_placeCells _ _ hr' hc', inFinder_eq_false_iff.mpr ⟨hr, hc⟩, bitOf_cellOf hb hch]
  rfl

/-- R141: the overlay keeps the cell of a codeword bit. -/
theorem gridCell_overlay_cellOf (g : Grid) :
    gridCell (overlay g) (cellOf b ch).1 (cellOf b ch).2 = gridCell g (cellOf b ch).1 (cellOf b ch).2 := by
  obtain ⟨hr, hr', hc, hc'⟩ := cellOf_dataRegion hb hch
  rw [gridCell_overlay _ hr' hc', inFinder_eq_false_iff.mpr ⟨hr, hc⟩]
  rfl

end

/-- R19: the overlay restores the finder invariant, whatever the grid was. -/
theorem finderIntact_overlay (g : Grid) : FinderIntact (overlay g) := fun r hr c hc hfinder => by
  rw [gridCell_overlay g hr hc, if_pos (inFinder_iff.mpr hfinder)]

/-! ### `PLACE` and `EXTR` -/

theorem exec_place (s : State) : exec .place s = .next { s with
    grid := overlay (placeCells s.cw s.grid), responses := ⟨.ok, 0⟩ :: s.responses } := rfl

theorem exec_extr (s : State) : exec .extr s = .next { s with
    cw := extract s.grid, responses := ⟨.ok, 0⟩ :: s.responses } := rfl

/-- Settles O47: `place` puts a codeword bit in its cell, which the overlay keeps; the overlay sets the finder cells. -/
theorem placeWritesTheGrid : Obligations.PlaceWritesTheGrid := by
  unfold Obligations.PlaceWritesTheGrid
  refine ⟨fun s => ⟨_, exec_place s, rfl, fun b hb ch hch => ?_, finderIntact_overlay _⟩, legalExactly_noOperands 21 rfl⟩
  exact (gridCell_overlay_cellOf hb hch _).trans (gridCell_placeCells_cellOf hb hch s.cw s.grid)

/-- Settles O48: `extract` reads each codeword bit from its cell. -/
theorem extrReadsTheGrid : Obligations.ExtrReadsTheGrid := by
  unfold Obligations.ExtrReadsTheGrid
  exact ⟨fun s => ⟨_, exec_extr s, rfl, fun _ hb _ hch => getLsbD_extract s.grid hb hch⟩, legalExactly_noOperands 22 rfl⟩

end Sys2Proof.Machine
end

section
/-!
The grid's commands (spec/45_grid_overlay.md R140 to R146): what the overlay keeps, and what `OVL` and `TOG` answer and write.
-/

namespace Sys2Proof.Machine

set_option Elab.async false

/-! ### What the overlay keeps -/

/-- R140: no data cell is changed. -/
theorem sameDataRegion_overlay (g : Grid) : SameDataRegion g (overlay g) := fun r hr hr' c hc hc' => by
  rw [gridCell_overlay g hr' hc', inFinder_eq_false_iff.mpr ⟨hr, hc⟩]
  rfl

/-- R145: where the finder invariant holds, each finder cell already has the value the overlay gives it. -/
theorem overlay_eq_self_of_finderIntact {g : Grid} (h : FinderIntact g) : overlay g = g :=
  grid_ext fun r hr c hc => by
    rw [gridCell_overlay g hr hc]
    split
    case isTrue hfinder => exact (h r hr c hc (inFinder_iff.mp hfinder)).symm
    case isFalse => rfl

/-! ### `OVL` -/

theorem exec_ovl (s : State) : exec .ovl s = .next { s with
    grid := overlay s.grid, responses := ⟨.ok, 0⟩ :: s.responses } := rfl

/-- Settles O50: `OVL` writes the overlay of the grid, which differs from the grid in finder cells only. -/
theorem ovlForcesTheFinder : Obligations.OvlForcesTheFinder := by
  unfold Obligations.OvlForcesTheFinder
  exact ⟨fun s => ⟨_, exec_ovl s, rfl, finderIntact_overlay s.grid, sameDataRegion_overlay s.grid,
    overlay_eq_self_of_finderIntact⟩, legalExactly_noOperands 23 rfl⟩

/-! ### `TOG` -/

/-- The grid with one cell inverted (R144). -/
def toggleCell (g : Grid) (r c : Nat) : Grid := setCell g r c (!gridCell g r c)

theorem gridCell_toggleCell (g : Grid) (r c : Nat) {a b : Nat} (ha : a < 20) (hb : b < 20) :
    gridCell (toggleCell g r c) a b = if a = r ∧ b = c then !gridCell g a b else gridCell g a b := by
  rw [toggleCell, gridCell_setCell _ _ _ _ ha hb]
  split
  case isTrue h => rw [h.1, h.2]
  case isFalse => rfl

section
variable {r c : BitVec 5} (s : State)

/-- R146 on the grid's cells: one branch for the data cells, one for the finder cells. -/
theorem exec_tog_of_le (hr : r.toNat ≤ 19) (hc : c.toNat ≤ 19) : exec (.tog r c) s =
    if inFinder r.toNat c.toNat then respondOk s 0
    else respondOk (s.withGrid (overlay (toggleCell s.grid r.toNat c.toNat))) 1 :=
  (withGridIdx_of_le hr).trans (withGridIdx_of_le hc)

theorem exec_tog_of_data (hr : 4 ≤ r.toNat) (hr' : r.toNat ≤ 19) (hc : 4 ≤ c.toNat) (hc' : c.toNat ≤ 19) :
    exec (.tog r c) s = .next { s with
      grid := overlay (toggleCell s.grid r.toNat c.toNat), responses := ⟨.ok, 1⟩ :: s.responses } := by
  rw [exec_tog_of_le s hr' hc', inFinder_eq_false_iff.mpr ⟨hr, hc⟩]
  rfl

theorem exec_tog_of_finder (hr : r.toNat ≤ 19) (hc : c.toNat ≤ 19) (hfinder : r.toNat < 4 ∨ c.toNat < 4) :
    exec (.tog r c) s = .next (answered s .ok 0) :=
  (exec_tog_of_le s hr hc).trans (if_pos (inFinder_iff.mpr hfinder))

/-- The row is checked before the column; either one out of range makes the command illegal. -/
theorem exec_tog_of_lt (h : 19 < r.toNat ∨ 19 < c.toNat) : exec (.tog r c) s = illegalAnswer s := by
  rcases le_or_gt r.toNat 19 with hr | hr
  · have hc : 19 < c.toNat := by omega
    exact (withGridIdx_of_le hr).trans (withGridIdx_of_lt hc)
  · exact withGridIdx_of_lt hr

end

theorem legalExactly_rowCol (n : Nat) {op : BitVec 6} {m : String}
    (hn : opcodeTable[n]? = some ⟨m, commandWord op 0 0, 0xFC1FFFE0, 19, 19⟩) :
    LegalExactly op fun idx imm => idx.toNat ≤ 19 ∧ imm.toNat ≤ 19 :=
  legalExactly_of_row n hn (by decide : MaskFrees 0xFC1FFFE0 5 5) fun idx imm => by omega

/-- Settles O51: the three cases of the two coordinates are the three answers; the toggled data cell passes through the overlay
with the rest of the data region. -/
theorem togInvertsDataCells : Obligations.TogInvertsDataCells := by
  unfold Obligations.TogInvertsDataCells
  refine ⟨fun r c s hr hr' hc hc' => ⟨_, exec_tog_of_data s hr hr' hc hc', rfl, finderIntact_overlay _,
      fun a ha ha' b hb hb' => ?_⟩,
    fun _ _ => exec_tog_of_finder, fun _ _ => exec_tog_of_lt, legalExactly_rowCol 24 rfl⟩
  have ha20 : a < 20 := by omega
  have hb20 : b < 20 := by omega
  exact (sameDataRegion_overlay _ a ha ha20 b hb hb20).trans (gridCell_toggleCell s.grid r.toNat c.toNat ha20 hb20)

end Sys2Proof.Machine
end

section
/-!
`ENCODE` (spec/46_pipelines.md R150 to R152): the stages it writes, and the grid of `encode_bytes`.
-/

namespace Sys2Proof.Machine

set_option Elab.async false

/-- `PLACE` covers the whole grid: the cells that `place` leaves are those the overlay writes. -/
theorem overlay_placeCells_eq (cws : Codewords) (g h : Grid) :
    overlay (placeCells cws g) = overlay (placeCells cws h) :=
  grid_ext fun r hr c hc => by
    rw [gridCell_overlay _ hr hc, gridCell_overlay _ hr hc, gridCell_placeCells _ _ hr hc, gridCell_placeCells _ _ hr hc]
    cases inFinder r c
    case true => rfl
    case false => rfl

/-- The codewords `HENCA` makes of the message `m`, placed and overlaid, whatever the grid held before. -/
theorem encodeBytes_of_some {s : State} {m : Message} (h : buildMessage s.pay s.plen.toNat s.draw = some m) :
    encodeBytes s.pay s.plen.toNat s.draw = some (placeOp (hencaOp (s.withMsg m))).grid := by
  rw [encodeBytes, h]
  exact congrArg some (overlay_placeCells_eq _ freshGrid s.grid)

/-- R151: an `ENCODE` that has a message writes it, its codewords and their grid, clears `PTL` and answers as `BUILD`. -/
theorem exec_encode_of_some {s : State} {m : Message} (h : buildMessage s.pay s.plen.toNat s.draw = some m) :
    exec .encode s = .next { s with
      msg := m, cw := (hencaOp (s.withMsg m)).cw, grid := (placeOp (hencaOp (s.withMsg m))).grid,
      stat := { s.stat with ptl := false },
      responses := ⟨.ok, BitVec.ofNat 20 (168 - 8 * s.plen.toNat)⟩ :: s.responses } := by
  rw [exec, execEncode, buildOp_eq_some h, fillerValue_eq]
  rfl

/-- R151, R171: `ENCODE` of a length above 21 is PayloadTooLarge. -/
theorem exec_encode_of_lt {s : State} (h : 21 < s.plen.toNat) : exec .encode s = tooLargeAnswer s := by
  rw [exec, execEncode, buildOp_eq_none (buildMessage_eq_none h)]
  rfl

/-- Settles O52: with `PLEN` at most 21 there is a message, whose codewords are those of `HENCA` and whose grid is that of
`PLACE`, the grid of `encode_bytes` too because nothing of the old grid is left. -/
theorem encodeWritesEveryStage : Obligations.EncodeWritesEveryStage := by
  unfold Obligations.EncodeWritesEveryStage
  refine ⟨fun s hs => ?_, fun _ => exec_encode_of_lt, legalExactly_noOperands 25 rfl⟩
  obtain ⟨m, hm, -⟩ := buildMessage_eq_some s.pay s.draw hs
  refine ⟨_, m, exec_encode_of_some hm, hm, rfl, fun _ => readAt_hencaOp_cw (s.withMsg m), fun b hb ch hch => ?_,
    finderIntact_overlay _, partition_hencaOp (s.withMsg m), encodeBytes_of_some hm⟩
  exact (gridCell_overlay_cellOf hb hch _).trans (gridCell_placeCells_cellOf hb hch _ _)

end Sys2Proof.Machine
end

section
/-!
`DECODE` (spec/46_pipelines.md R153 to R156): its two ends, and the cells it reads.
-/

namespace Sys2Proof.Machine

set_option Elab.async false

/-! ### The two ends of `DECODE` -/

/-- The writes of an `HDECA` that accepts all sixteen codewords. -/
def hdecaAcceptAll (s : State) : State := hdecaAccept s (correctedBefore s.cw 16) (dataBefore s.cw 16)

theorem exec_hdeca_eq_hdecaAcceptAll {s : State} (h : NoDoubleError s.cw) :
    exec .hdeca s = .next ((hdecaAcceptAll s).respond .ok (BitVec.ofNat 20 (correctedBefore s.cw 16))) := by
  rw [exec, execHdeca, scanChunks_accepted h]
  rfl

section
variable {s : State} {cws : Codewords} (hcws : extract s.grid = cws)
include hcws

/-- R154 without a double error: the writes of `EXTR`, `HDECA` and `UNPK`, one after the other. -/
theorem exec_decode_of_noDoubleError (h : NoDoubleError cws) :
    exec .decode s = .next ((unpkOp (hdecaAcceptAll (s.withCw cws))).respond .ok
      (BitVec.ofNat 20 ((unpkOp (hdecaAcceptAll (s.withCw cws))).plen.toNat + 32 * correctedBefore cws 16))) := by
  subst hcws
  rw [exec, execDecode, extrOp, State.withCw_cw, scanChunks_accepted h]
  rfl

/-- R154 with a double error: `DECODE` ends as `HDECA` does on the extracted codewords. -/
theorem exec_decode_eq_hdeca {ch : Nat} (h : FirstDoubleError cws ch) : exec .decode s = exec .hdeca (s.withCw cws) := by
  subst hcws
  change execDecode s = execHdeca (s.withCw _)
  rw [execDecode, execHdeca, extrOp, State.withCw_cw, scanChunks_rejected h]

/-- R155: what a rejection writes. -/
theorem exec_decode_of_firstDoubleError {ch : Nat} (h : FirstDoubleError cws ch) :
    exec .decode s = .next { s with
      cw := cws,
      stat := { s.stat with
        dbe := true, cor := false, ovr := false, syn := (hdec (readAt cws ch)).syndrome,
        ech := BitVec.ofNat 4 ch, corr := BitVec.ofNat 5 (correctedBefore cws ch) },
      responses := ⟨.doubleBitErrorRejected, BitVec.ofNat 20 ch⟩ :: s.responses } :=
  (exec_decode_eq_hdeca hcws h).trans (exec_hdeca_of_firstDoubleError (s := s.withCw cws) h)

end

/-! ### What the operations keep, and the responses given in between -/

section
variable (s : State)

@[simp] theorem unpkOp_grid : (unpkOp s).grid = s.grid := by simp [unpkOp]
@[simp] theorem unpkOp_stat : (unpkOp s).stat = s.stat := by simp [unpkOp]

@[simp] theorem hdecaAcceptAll_grid : (hdecaAcceptAll s).grid = s.grid := by simp [hdecaAcceptAll, hdecaAccept]
@[simp] theorem hdecaAcceptAll_responses : (hdecaAcceptAll s).responses = s.responses := by simp [hdecaAcceptAll]
@[simp] theorem hdecaAcceptAll_stat_ptl : (hdecaAcceptAll s).stat.ptl = s.stat.ptl := by
  simp [hdecaAcceptAll, hdecaAccept]
@[simp] theorem hdecaAcceptAll_stat_corr :
    (hdecaAcceptAll s).stat.corr = BitVec.ofNat 5 (correctedBefore s.cw 16) := by simp [hdecaAcceptAll, hdecaAccept]

variable (c : RespCode) (v : Value)

@[simp] theorem withMsg_respond (m : Message) : (s.respond c v).withMsg m = (s.withMsg m).respond c v := rfl

@[simp] theorem withStat_respond (st : Stat) : (s.respond c v).withStat st = (s.withStat st).respond c v := rfl

@[simp] theorem unpkOp_respond : unpkOp (s.respond c v) = (unpkOp s).respond c v := rfl

@[simp] theorem hdecaAcceptAll_respond : hdecaAcceptAll (s.respond c v) = (hdecaAcceptAll s).respond c v := by
  simp [hdecaAcceptAll, hdecaAccept]

end

theorem exec_extr_eq_withCw (s : State) : exec .extr s = .next ((s.withCw (extract s.grid)).respond .ok 0) := rfl

theorem respond_eq_of_responses {s : State} {rs : List Response} (h : s.responses = rs) (c : RespCode) (v : Value) :
    s.respond c v = { s with responses := ⟨c, v⟩ :: rs } := by
  rw [State.respond, h]

/-- Settles O54: each end of `DECODE` is written with the operations of the single commands, which do not read the responses
given in between. -/
theorem decodeIsExtrHdecaUnpk : Obligations.DecodeIsExtrHdecaUnpk := by
  unfold Obligations.DecodeIsExtrHdecaUnpk
  refine ⟨fun s h => ?_, fun s ch h => ?_, legalExactly_noOperands 26 rfl⟩
  · refine ⟨_, _, _, _, exec_extr_eq_withCw s, exec_hdeca_eq_hdecaAcceptAll h, exec_unpk _,
      exec_decode_of_noDoubleError rfl h, ?_, by simp, by simp, ?_⟩
    · rw [respond_eq_of_responses (rs := s.responses) (by simp)]
      simp
    · simpa using toNat_corr_correctedBefore (extract s.grid) (Nat.le_refl 16)
  · exact ⟨_, _, _, exec_extr s, exec_hdeca_of_firstDoubleError h, exec_decode_of_firstDoubleError rfl h, rfl, rfl, rfl, rfl,
      rfl⟩

/-! ### Rejection -/

theorem syndrome_ne_zero_of_doubleError {r : Codeword} (h : (hdec r).doubleError = true) : (hdec r).syndrome ≠ 0 := by
  rw [doubleError_hdec, Bool.and_eq_true] at h
  rw [syndrome_hdec]
  exact of_decide_eq_true h.2

/-- Settles O55: a rejection does not write `GRID`, so the second `DECODE` extracts the same codewords and writes into `CW` and
`STAT` what they hold. -/
theorem rejectedDecodeLeavesThePayload : Obligations.RejectedDecodeLeavesThePayload := by
  unfold Obligations.RejectedDecodeLeavesThePayload
  intro s ch h
  have ⟨hch, hdouble, _⟩ := h
  exact ⟨_, _, exec_decode_of_firstDoubleError rfl h, rfl, syndrome_ne_zero_of_doubleError hdouble,
    Nat.mod_eq_of_lt hch, toNat_corr_correctedBefore _ (Nat.le_of_lt hch),
    exec_decode_of_firstDoubleError rfl h, ⟨rfl, rfl, rfl, rfl, rfl, rfl⟩, rfl⟩

/-! ### The cells that decoding reads -/

/-- R134: `extract` reads data cells only. -/
theorem extract_eq_of_sameDataRegion {g h : Grid} (hsame : SameDataRegion g h) : extract h = extract g :=
  readAt_ext fun ch hch => BitVec.eq_of_getLsbD_eq fun b hb => by
    obtain ⟨hr, hr', hc, hc'⟩ := cellOf_dataRegion hb hch
    rw [getLsbD_extract h hb hch, getLsbD_extract g hb hch, hsame _ hr hr' _ hc hc']

/-- Settles O60: both commands use the grid through `extract` only, which is the same for both grids. -/
theorem decodingIgnoresTheFinder : Obligations.DecodingIgnoresTheFinder := by
  unfold Obligations.DecodingIgnoresTheFinder
  intro s h hsame
  have hextract : extract h = extract s.grid := extract_eq_of_sameDataRegion hsame
  refine ⟨?_, _, exec_extr s, ?_⟩
  · obtain hnone | ⟨ch, hfirst⟩ := noDoubleError_or_first (extract s.grid)
    · exact ⟨_, exec_decode_of_noDoubleError rfl hnone, exec_decode_of_noDoubleError (s := { s with grid := h }) hextract hnone⟩
    · exact ⟨_, exec_decode_of_firstDoubleError rfl hfirst,
        exec_decode_of_firstDoubleError (s := { s with grid := h }) hextract hfirst⟩
  · rw [exec_extr, hextract]

end Sys2Proof.Machine
end

section
/-!
PayloadTooLarge (spec/60_exceptions.md R171): `BUILD` and `ENCODE` on both sides of the boundary at `PLEN = 21`.
-/

namespace Sys2Proof.Machine

set_option Elab.async false

/-- Settles O30: above 21 there is no message and both commands fault, whatever the draw, which the length does not depend on;
up to 21 there is one message, and both commands go on with it. -/
theorem longPayloadsAreRejected : Obligations.LongPayloadsAreRejected := by
  unfold Obligations.LongPayloadsAreRejected
  refine ⟨fun _ _ hlong => ⟨exec_build_of_lt hlong, exec_encode_of_lt hlong⟩, fun s hshort => ?_⟩
  obtain ⟨m, hm, -⟩ := buildMessage_eq_some s.pay s.draw hshort
  exact ⟨⟨_, exec_build_of_some hm, rfl, rfl⟩, _, exec_encode_of_some hm, rfl, rfl⟩

end Sys2Proof.Machine
end

section
/-!
Decoding undoes encoding (spec/30_encoding.md R40, R49): which fields each operand form of R41 accepts, and the command it makes
of them.
-/

namespace Sys2Proof.Machine

set_option Elab.async false

/-! ### An operand in the low bits of its field -/

theorem eq_setWidth_iff {n k : Nat} {x : BitVec n} {v : BitVec k} (hkn : k ≤ n) :
    x = v.setWidth n ↔ x.toNat < 2 ^ k ∧ x.extractLsb' 0 k = v := by
  constructor
  · rintro rfl
    rw [BitVec.toNat_setWidth_of_le hkn]
    exact ⟨v.isLt, Laws.extractLsb'_setWidth_low v hkn⟩
  · rintro ⟨hlt, rfl⟩
    refine BitVec.eq_of_toNat_eq ?_
    rw [BitVec.toNat_setWidth_of_le hkn, BitVec.extractLsb'_toNat]
    exact (Nat.mod_eq_of_lt hlt).symm

theorem eq_setWidth_iff_extractLsb' {n k m : Nat} {x : BitVec n} {v : BitVec k} (hn : n = k + m) :
    x = v.setWidth n ↔ x.extractLsb' k m = 0 ∧ x.extractLsb' 0 k = v := by
  rw [eq_setWidth_iff (by omega), extractLsb'_eq_zero_iff_toNat_lt x hn]

theorem eq_setWidth_five_iff {x : BitVec 5} {v : BitVec 4} :
    x = v.setWidth 5 ↔ x.getLsbD 4 = false ∧ x.extractLsb' 0 4 = v := by
  rw [eq_setWidth_iff (by decide), getLsbD_four_eq_false_iff_toNat_lt]

/-! ### What each operand form accepts -/

/-- The value test of a form, once its bits test is passed. -/
theorem ite_ite_eq_ok_iff {bits checks : Prop} [Decidable bits] [Decidable checks] {i j : Instr} :
    (if bits then if checks then .ok i else .error .valueCheck else .error .maskedBit) = Except.ok (ε := DecodeError) j ↔
      i = j ∧ bits ∧ checks := by
  split_ifs with hb hc <;> simp [*]

theorem ite_eq_ok_iff {checks : Prop} [Decidable checks] {e : DecodeError} {i j : Instr} :
    (if checks then .ok i else .error e) = Except.ok j ↔ i = j ∧ checks := by
  split_ifs with hc <;> simp [*]

section
variable {w : Word} {i : Instr}

theorem formNone_eq_ok_iff {j : Instr} : formNone w j = .ok i ↔ j = i ∧ idxField w = 0 ∧ immField w = 0 := ite_eq_ok_iff

theorem formPosByte_eq_ok_iff {f : BitVec 5 → Byte → Instr} : formPosByte w f = .ok i ↔
    ∃ pos v, f pos v = i ∧ idxField w = pos ∧ immField w = v.setWidth 20 ∧ bytePosOk pos = true := by
  simp only [formPosByte, ite_ite_eq_ok_iff, eq_setWidth_iff_extractLsb' (show 20 = 8 + 12 from rfl)]
  constructor
  · rintro ⟨hf, hbits, hpos⟩
    exact ⟨_, _, hf, rfl, ⟨hbits, rfl⟩, hpos⟩
  · rintro ⟨_, _, hf, rfl, ⟨hbits, rfl⟩, hpos⟩
    exact ⟨hf, hbits, hpos⟩

theorem formPos_eq_ok_iff {f : BitVec 5 → Instr} : formPos w f = .ok i ↔
    ∃ pos, f pos = i ∧ idxField w = pos ∧ immField w = 0 ∧ bytePosOk pos = true := by
  simp only [formPos, ite_ite_eq_ok_iff]
  constructor
  · rintro ⟨hf, hbits, hpos⟩
    exact ⟨_, hf, rfl, hbits, hpos⟩
  · rintro ⟨_, hf, rfl, hbits, hpos⟩
    exact ⟨hf, hbits, hpos⟩

theorem formLen_eq_ok_iff {f : BitVec 5 → Instr} : formLen w f = .ok i ↔
    ∃ n, f n = i ∧ idxField w = 0 ∧ immField w = n.setWidth 20 := by
  simp only [formLen, ite_eq_ok_iff, eq_setWidth_iff_extractLsb' (show 20 = 5 + 15 from rfl)]
  constructor
  · rintro ⟨hf, hidx, hbits⟩
    exact ⟨_, hf, hidx, hbits, rfl⟩
  · rintro ⟨_, hf, hidx, hbits, rfl⟩
    exact ⟨hf, hidx, hbits⟩

theorem formChunkCw_eq_ok_iff {f : BitVec 4 → Codeword → Instr} : formChunkCw w f = .ok i ↔
    ∃ ch v, f ch v = i ∧ idxField w = ch.setWidth 5 ∧ immField w = v.setWidth 20 := by
  simp only [formChunkCw, ite_eq_ok_iff, eq_setWidth_five_iff, eq_setWidth_iff_extractLsb' (show 20 = 16 + 4 from rfl)]
  constructor
  · rintro ⟨hf, hidx, hbits⟩
    exact ⟨_, _, hf, ⟨hidx, rfl⟩, hbits, rfl⟩
  · rintro ⟨_, _, hf, ⟨hidx, rfl⟩, hbits, rfl⟩
    exact ⟨hf, hidx, hbits⟩

theorem formChunk_eq_ok_iff {f : BitVec 4 → Instr} : formChunk w f = .ok i ↔
    ∃ ch, f ch = i ∧ idxField w = ch.setWidth 5 ∧ immField w = 0 := by
  simp only [formChunk, ite_eq_ok_iff, eq_setWidth_five_iff]
  constructor
  · rintro ⟨hf, hidx, hbits⟩
    exact ⟨_, hf, ⟨hidx, rfl⟩, hbits⟩
  · rintro ⟨_, hf, ⟨hidx, rfl⟩, hbits⟩
    exact ⟨hf, hidx, hbits⟩

theorem formRowBits_eq_ok_iff {f : BitVec 5 → GridRow → Instr} : formRowBits w f = .ok i ↔
    ∃ row v, f row v = i ∧ idxField w = row ∧ immField w = v ∧ gridIdxOk row = true := by
  simp only [formRowBits, ite_eq_ok_iff]
  constructor
  · rintro ⟨hf, hrow⟩
    exact ⟨_, _, hf, rfl, rfl, hrow⟩
  · rintro ⟨_, _, hf, rfl, rfl, hrow⟩
    exact ⟨hf, hrow⟩

theorem formRow_eq_ok_iff {f : BitVec 5 → Instr} : formRow w f = .ok i ↔
    ∃ row, f row = i ∧ idxField w = row ∧ immField w = 0 ∧ gridIdxOk row = true := by
  simp only [formRow, ite_ite_eq_ok_iff]
  constructor
  · rintro ⟨hf, hbits, hrow⟩
    exact ⟨_, hf, rfl, hbits, hrow⟩
  · rintro ⟨_, hf, rfl, hbits, hrow⟩
    exact ⟨hf, hbits, hrow⟩

theorem formRowCol_eq_ok_iff {f : BitVec 5 → BitVec 5 → Instr} : formRowCol w f = .ok i ↔
    ∃ row col, f row col = i ∧ idxField w = row ∧ immField w = col.setWidth 20
      ∧ (gridIdxOk row && gridIdxOk col) = true := by
  simp only [formRowCol, ite_ite_eq_ok_iff, eq_setWidth_iff_extractLsb' (show 20 = 5 + 15 from rfl)]
  constructor
  · rintro ⟨hf, hbits, hcell⟩
    exact ⟨_, _, hf, rfl, ⟨hbits, rfl⟩, hcell⟩
  · rintro ⟨_, _, hf, rfl, ⟨hbits, rfl⟩, hcell⟩
    exact ⟨hf, hbits, hcell⟩

theorem formData_eq_ok_iff {f : Chunk → Instr} : formData w f = .ok i ↔
    ∃ v, f v = i ∧ idxField w = 0 ∧ immField w = v.setWidth 20 := by
  simp only [formData, ite_eq_ok_iff, eq_setWidth_iff_extractLsb' (show 20 = 11 + 9 from rfl)]
  constructor
  · rintro ⟨hf, hidx, hbits⟩
    exact ⟨_, hf, hidx, hbits, rfl⟩
  · rintro ⟨_, hf, hidx, hbits, rfl⟩
    exact ⟨hf, hidx, hbits⟩

theorem formCw_eq_ok_iff {f : Codeword → Instr} : formCw w f = .ok i ↔
    ∃ v, f v = i ∧ idxField w = 0 ∧ immField w = v.setWidth 20 := by
  simp only [formCw, ite_eq_ok_iff, eq_setWidth_iff_extractLsb' (show 20 = 16 + 4 from rfl)]
  constructor
  · rintro ⟨hf, hidx, hbits⟩
    exact ⟨_, hf, hidx, hbits, rfl⟩
  · rintro ⟨_, hf, hidx, hbits, rfl⟩
    exact ⟨hf, hidx, hbits⟩

end

/-! ### The two round trips -/

/-- Settles O1: the opcode of the word selects the form of the command, which finds the operands in the fields of the word. -/
theorem decodeOfEncode : Obligations.DecodeOfEncode := by
  unfold Obligations.DecodeOfEncode
  intro i hwf
  obtain ⟨hop, hidx, hz, himm⟩ := Laws.EncodeFields.of_instr i
  rw [decode, hz, hop, if_neg Bool.false_ne_true]
  cases i with
  | wrpay | wrmsg => exact formPosByte_eq_ok_iff.mpr ⟨_, _, rfl, hidx, himm, hwf⟩
  | rdpay | rdmsg => exact formPos_eq_ok_iff.mpr ⟨_, rfl, hidx, himm, hwf⟩
  | wrlen => exact formLen_eq_ok_iff.mpr ⟨_, rfl, hidx, himm⟩
  | wrcw => exact formChunkCw_eq_ok_iff.mpr ⟨_, _, rfl, hidx, himm⟩
  | rdcw | henc | hdec => exact formChunk_eq_ok_iff.mpr ⟨_, rfl, hidx, himm⟩
  | wrrow => exact formRowBits_eq_ok_iff.mpr ⟨_, _, rfl, hidx, himm, hwf⟩
  | rdrow => exact formRow_eq_ok_iff.mpr ⟨_, rfl, hidx, himm, hwf⟩
  | tog => exact formRowCol_eq_ok_iff.mpr ⟨_, _, rfl, hidx, himm, hwf⟩
  | henci => exact formData_eq_ok_iff.mpr ⟨_, rfl, hidx, himm⟩
  | hdeci => exact formCw_eq_ok_iff.mpr ⟨_, rfl, hidx, himm⟩
  | nop | rst | rdlen | rdstat | build | unpk | henca | hdeca | place | extr | ovl | encode | decode =>
    exact formNone_eq_ok_iff.mpr ⟨rfl, hidx, himm⟩

/-- What the encoder would make of the fields of `w`: the round trip of R49, field by field. -/
theorem encode_eq_of_fields {w : Word} {i : Instr} (hz : zField w = false) (hop : opField w = i.opcode)
    (hidx : idxField w = i.idx) (himm : immField w = i.imm) : encode i = w := by
  rw [encode, ← hop, ← hidx, ← himm]
  exact Laws.commandWord_fields hz

/-- Settles O2: whichever form accepts the word, the command it makes has the opcode and operands of the word and passes the
checks. -/
theorem encodeOfDecode : Obligations.EncodeOfDecode := by
  unfold Obligations.EncodeOfDecode
  intro w i h
  rw [decode] at h
  split_ifs at h with hz
  rw [Bool.not_eq_true] at hz
  split at h
  -- WRPAY, WRMSG
  case h_3 hop | h_7 hop =>
    obtain ⟨pos, v, rfl, hidx, himm, hwf⟩ := formPosByte_eq_ok_iff.mp h
    exact ⟨encode_eq_of_fields hz hop hidx himm, hwf⟩
  -- RDPAY, RDMSG
  case h_4 hop | h_8 hop =>
    obtain ⟨pos, rfl, hidx, himm, hwf⟩ := formPos_eq_ok_iff.mp h
    exact ⟨encode_eq_of_fields hz hop hidx himm, hwf⟩
  -- WRLEN
  case h_5 hop =>
    obtain ⟨n, rfl, hidx, himm⟩ := formLen_eq_ok_iff.mp h
    exact ⟨encode_eq_of_fields hz hop hidx himm, rfl⟩
  -- WRCW
  case h_9 hop =>
    obtain ⟨ch, v, rfl, hidx, himm⟩ := formChunkCw_eq_ok_iff.mp h
    exact ⟨encode_eq_of_fields hz hop hidx himm, rfl⟩
  -- RDCW, HENC, HDEC
  case h_10 hop | h_16 hop | h_19 hop =>
    obtain ⟨ch, rfl, hidx, himm⟩ := formChunk_eq_ok_iff.mp h
    exact ⟨encode_eq_of_fields hz hop hidx himm, rfl⟩
  -- WRROW
  case h_11 hop =>
    obtain ⟨row, v, rfl, hidx, himm, hwf⟩ := formRowBits_eq_ok_iff.mp h
    exact ⟨encode_eq_of_fields hz hop hidx himm, hwf⟩
  -- RDROW
  case h_12 hop =>
    obtain ⟨row, rfl, hidx, himm, hwf⟩ := formRow_eq_ok_iff.mp h
    exact ⟨encode_eq_of_fields hz hop hidx himm, hwf⟩
  -- HENCI
  case h_18 hop =>
    obtain ⟨v, rfl, hidx, himm⟩ := formData_eq_ok_iff.mp h
    exact ⟨encode_eq_of_fields hz hop hidx himm, rfl⟩
  -- HDECI
  case h_21 hop =>
    obtain ⟨v, rfl, hidx, himm⟩ := formCw_eq_ok_iff.mp h
    exact ⟨encode_eq_of_fields hz hop hidx himm, rfl⟩
  -- TOG
  case h_25 hop =>
    obtain ⟨row, col, rfl, hidx, himm, hwf⟩ := formRowCol_eq_ok_iff.mp h
    exact ⟨encode_eq_of_fields hz hop hidx himm, hwf⟩
  -- no opcode of the table
  case h_28 => cases h
  -- the commands without operands
  all_goals
    next hop =>
    obtain ⟨rfl, hidx, himm⟩ := formNone_eq_ok_iff.mp h
    exact ⟨encode_eq_of_fields hz hop hidx himm, rfl⟩

/-- Settles O5: each word is the encoding of the command beside it. -/
theorem sampleWordsDecode : Obligations.SampleWordsDecode := by
  unfold Obligations.SampleWordsDecode
  exact ⟨decodeOfEncode .rst rfl, decodeOfEncode (.wrpay 1 0x69) rfl, decodeOfEncode (.rdmsg 21) rfl,
    decodeOfEncode (.wrcw 5 0x0204) rfl, decodeOfEncode (.wrrow 4 0x00115) rfl, decodeOfEncode .build rfl,
    decodeOfEncode (.henci 0x612) rfl, decodeOfEncode (.hdec 5) rfl, decodeOfEncode .extr rfl,
    decodeOfEncode (.tog 13 9) rfl, decodeOfEncode .encode rfl⟩

end Sys2Proof.Machine
end

section
/-!
One step (spec/00_scope.md R5, spec/60_exceptions.md R177, R178, spec/70_reset_and_hazards.md R190): what the next input makes
of the state.
-/

namespace Sys2Proof.Machine

set_option Elab.async false

/-! ### The next input -/

theorem step_no_input {s : State} (h : s.pending = []) : step s = .next s := by
  rw [step, takeEvent_nil h]

theorem step_reset {s : State} {rest : List Event} (h : s.pending = .reset :: rest) :
    step s = .next { s with pending := rest }.resetRegisters := by
  rw [step, takeEvent_reset h]

theorem pending_cases (s : State) : s.pending = [] ∨ (∃ rest, s.pending = .reset :: rest)
    ∨ ∃ w d rest, s.pending = .command w d :: rest := by
  cases s.pending with
  | nil => exact .inl rfl
  | cons e rest =>
    cases e with
    | reset => exact .inr (.inl ⟨rest, rfl⟩)
    | command w d => exact .inr (.inr ⟨w, d, rest, rfl⟩)

theorem runWord_of_decode {w : Word} {i : Instr} (s : State) (h : decode w = .ok i) : runWord w s = exec i s := by
  rw [runWord, h]

/-- What a step can do: nothing, the reset, the answer to an illegal word, or one command. -/
theorem step_cases {s t : State} (h : step s = .next t) :
    t = s
    ∨ (∃ rest, t = { s with pending := rest }.resetRegisters)
    ∨ (∃ d rest, t = answered { s with pending := rest, draw := d } .illegalCommand 0)
    ∨ ∃ w d rest i, s.pending = .command w d :: rest ∧ decode w = .ok i
        ∧ exec i { s with pending := rest, draw := d } = .next t := by
  obtain hs | ⟨rest, hs⟩ | ⟨w, d, rest, hs⟩ := pending_cases s
  · cases (step_no_input hs).symm.trans h
    exact .inl rfl
  · cases (step_reset hs).symm.trans h
    exact .inr (.inl ⟨rest, rfl⟩)
  · rw [step_command hs] at h
    by_cases hw : ∃ i, decode w = .ok i
    · obtain ⟨i, hi⟩ := hw
      exact .inr (.inr (.inr ⟨w, d, rest, i, hs, hi, (runWord_of_decode _ hi).symm.trans h⟩))
    · cases (runWord_of_not_ok _ (not_exists.mp hw)).symm.trans h
      exact .inr (.inr (.inl ⟨d, rest, rfl⟩))

/-- Settles O6: the step of a command word is `runWord`, which is `exec` of the command the word decodes to. -/
theorem stepRunsDecodedCommand : Obligations.StepRunsDecodedCommand := by
  unfold Obligations.StepRunsDecodedCommand
  exact fun _ _ _ _ _ hs hi => (step_command hs).trans (runWord_of_decode _ hi)

/-- Settles O7: the step of a reset writes the registers as `RST` does, without its response. -/
theorem stepWithoutCommand : Obligations.StepWithoutCommand := by
  unfold Obligations.StepWithoutCommand
  exact ⟨fun _ => step_no_input, fun s _ hs => ⟨_, s.resetRegisters.respond .ok 0, step_reset hs, rfl,
    ⟨rfl, rfl, rfl, rfl, rfl, rfl⟩, ⟨rfl, rfl, rfl, rfl, rfl, rfl⟩, rfl, rfl⟩⟩

/-- Settles O9: every command answers once, hence goes on; and each kind of input is a reset, a word or none. -/
theorem nothingEverStops : Obligations.NothingEverStops := by
  unfold Obligations.NothingEverStops
  refine ⟨fun s => ?_, fun i s => ?_⟩
  · obtain hs | ⟨rest, hs⟩ | ⟨w, d, rest, hs⟩ := pending_cases s
    · exact ⟨_, step_no_input hs⟩
    · exact ⟨_, step_reset hs⟩
    · obtain ⟨t, -, ht, -⟩ := runWord_answersOnce w { s with pending := rest, draw := d }
      exact ⟨t, (step_command hs).trans ht⟩
  · obtain ⟨t, -, ht, -⟩ := exec_answersOnce i s
    exact ⟨t, ht⟩

end Sys2Proof.Machine
end

section
/-!
What each command leaves unchanged (spec/10_state.md section 4, R23): the table of writers as a function, and that `exec` keeps
to it.
-/

namespace Sys2Proof.Machine

set_option Elab.async false

/-! ### The table of writers -/

/-- The columns of the table: the five registers beside `STAT`, and the three groups of `STAT` fields of R23. -/
inductive Part where
  | pay | plen | msg | cw | grid | ptl | verdict | corr

/-- The columns a command may write (10_state.md section 4, R23). -/
def writtenParts : Instr → List Part
  | .wrpay _ _ => [.pay]
  | .wrlen _ => [.plen]
  | .wrmsg _ _ => [.msg]
  | .wrcw _ _ | .henc _ | .henca | .extr => [.cw]
  | .wrrow _ _ | .place | .ovl | .tog _ _ => [.grid]
  | .build => [.msg, .ptl]
  | .unpk => [.pay, .plen]
  | .hdec _ => [.msg, .verdict]
  | .hdeca => [.msg, .verdict, .corr]
  | .encode => [.msg, .cw, .grid, .ptl]
  | .decode => [.pay, .plen, .msg, .cw, .verdict, .corr]
  | .rst => [.pay, .plen, .msg, .cw, .grid, .ptl, .verdict, .corr]
  | .nop | .rdpay _ | .rdlen | .rdmsg _ | .rdcw _ | .rdrow _ | .rdstat | .henci _ | .hdeci _ => []

/-- `t` differs from `s` only in the parts written and in the responses given. -/
structure Frame (written : List Part) (s t : State) : Prop where
  pay : Part.pay ∈ written ∨ t.pay = s.pay
  plen : Part.plen ∈ written ∨ t.plen = s.plen
  msg : Part.msg ∈ written ∨ t.msg = s.msg
  cw : Part.cw ∈ written ∨ t.cw = s.cw
  grid : Part.grid ∈ written ∨ t.grid = s.grid
  ptl : Part.ptl ∈ written ∨ t.stat.ptl = s.stat.ptl
  verdict : Part.verdict ∈ written ∨ SameVerdictFields t.stat s.stat
  corr : Part.corr ∈ written ∨ t.stat.corr = s.stat.corr
  pending : t.pending = s.pending
  draw : t.draw = s.draw

/-- The result goes on, within the frame. -/
def Framed (written : List Part) (s : State) (result : Result) : Prop := ∃ t, result = .next t ∧ Frame written s t

section
variable {written : List Part} {s : State}

theorem framed_next {t : State} {result : Result} (h : result = .next t) (ht : Frame written s t) :
    Framed written s result := ⟨t, h, ht⟩

theorem framed_illegalCommand : Framed written s (illegalCommand s) :=
  ⟨_, rfl, by constructor <;> simp [SameVerdictFields]⟩

theorem framed_withBytePos {pos : BitVec 5} {run : Nat → Result} (h : ∀ k, Framed written s (run k)) :
    Framed written s (withBytePos pos s run) := by
  rcases le_or_gt pos.toNat 21 with hpos | hpos
  · rw [withBytePos_of_le hpos]; exact h _
  · rw [withBytePos_of_lt hpos]; exact framed_illegalCommand

theorem framed_withGridIdx {i : BitVec 5} {run : Nat → Result} (h : ∀ k, Framed written s (run k)) :
    Framed written s (withGridIdx i s run) := by
  rcases le_or_gt i.toNat 19 with hi | hi
  · rw [withGridIdx_of_le hi]; exact h _
  · rw [withGridIdx_of_lt hi]; exact framed_illegalCommand

end

/-! ### The commands with branches of their own -/

section
variable (s : State)

theorem execBuild_framed : Framed [.msg, .ptl] s (exec .build s) := by
  rcases le_or_gt s.plen.toNat 21 with hshort | hlong
  · obtain ⟨m, hm, -⟩ := buildMessage_eq_some s.pay s.draw hshort
    exact framed_next (exec_build_of_some hm) (by constructor <;> simp [SameVerdictFields])
  · exact framed_next (exec_build_of_lt hlong) (by constructor <;> simp [answered, SameVerdictFields])

theorem execEncode_framed : Framed [.msg, .cw, .grid, .ptl] s (exec .encode s) := by
  rcases le_or_gt s.plen.toNat 21 with hshort | hlong
  · obtain ⟨m, hm, -⟩ := buildMessage_eq_some s.pay s.draw hshort
    exact framed_next (exec_encode_of_some hm) (by constructor <;> simp [SameVerdictFields])
  · exact framed_next (exec_encode_of_lt hlong) (by constructor <;> simp [answered, SameVerdictFields])

theorem execHdeca_framed : Framed [.msg, .verdict, .corr] s (exec .hdeca s) := by
  obtain hnone | ⟨ch, hfirst⟩ := noDoubleError_or_first s.cw
  · exact framed_next (exec_hdeca_of_noDoubleError hnone) (by constructor <;> simp)
  · exact framed_next (exec_hdeca_of_firstDoubleError hfirst) (by constructor <;> simp [answered])

theorem execDecode_framed : Framed [.pay, .plen, .msg, .cw, .verdict, .corr] s (exec .decode s) := by
  obtain hnone | ⟨ch, hfirst⟩ := noDoubleError_or_first (extract s.grid)
  · exact framed_next (exec_decode_of_noDoubleError rfl hnone)
      (by constructor <;> simp [unpkOp, hdecaAcceptAll, hdecaAccept])
  · exact framed_next (exec_decode_of_firstDoubleError rfl hfirst) (by constructor <;> simp)

theorem execTog_framed (row col : BitVec 5) : Framed [.grid] s (exec (.tog row col) s) := by
  refine framed_withGridIdx fun r => framed_withGridIdx fun c => ?_
  split
  next => exact framed_next rfl (by constructor <;> simp [SameVerdictFields])
  next => exact framed_next rfl (by constructor <;> simp [SameVerdictFields])

end

/-- Every command keeps to the table. -/
theorem exec_framed (i : Instr) (s : State) : Framed (writtenParts i) s (exec i s) := by
  cases i with
  | wrpay | rdpay | wrmsg | rdmsg =>
    exact framed_withBytePos fun _ => framed_next rfl (by constructor <;> simp [writtenParts, SameVerdictFields])
  | wrrow | rdrow =>
    exact framed_withGridIdx fun _ => framed_next rfl (by constructor <;> simp [writtenParts, SameVerdictFields])
  | build => exact execBuild_framed s
  | encode => exact execEncode_framed s
  | hdec ch => exact framed_next (exec_hdec ch s rfl) (by constructor <;> simp [writtenParts])
  | hdeca => exact execHdeca_framed s
  | decode => exact execDecode_framed s
  | tog row col => exact execTog_framed s row col
  | nop | rst | wrlen | rdlen | wrcw | rdcw | rdstat | unpk | henc | henca | henci | hdeci | place | extr | ovl =>
    exact framed_next rfl
      (by constructor <;> simp [writtenParts, SameVerdictFields, unpkOp, hencaOp, placeOp, extrOp])

theorem frame_of_exec {i : Instr} {s t : State} (h : exec i s = .next t) : Frame (writtenParts i) s t := by
  obtain ⟨u, hu, hframe⟩ := exec_framed i s
  cases hu.symm.trans h
  exact hframe

/-! ### The writers of each part -/

section
variable {i : Instr}

theorem ptl_mem_writtenParts : Part.ptl ∈ writtenParts i ↔ i = .build ∨ i = .encode ∨ i = .rst := by
  cases i <;> simp [writtenParts]

theorem corr_mem_writtenParts : Part.corr ∈ writtenParts i ↔ i = .hdeca ∨ i = .decode ∨ i = .rst := by
  cases i <;> simp [writtenParts]

theorem verdict_mem_writtenParts :
    Part.verdict ∈ writtenParts i ↔ (∃ ch, i = .hdec ch) ∨ i = .hdeca ∨ i = .decode ∨ i = .rst := by
  cases i <;> simp [writtenParts]

theorem pay_mem_writtenParts :
    Part.pay ∈ writtenParts i ↔ (∃ p v, i = .wrpay p v) ∨ i = .rst ∨ i = .unpk ∨ i = .decode := by
  cases i <;> simp [writtenParts]

theorem plen_mem_writtenParts :
    Part.plen ∈ writtenParts i ↔ (∃ n, i = .wrlen n) ∨ i = .rst ∨ i = .unpk ∨ i = .decode := by
  cases i <;> simp [writtenParts]

theorem msg_mem_writtenParts : Part.msg ∈ writtenParts i ↔ (∃ p v, i = .wrmsg p v) ∨ i = .rst ∨ i = .build
    ∨ (∃ ch, i = .hdec ch) ∨ i = .hdeca ∨ i = .encode ∨ i = .decode := by
  cases i <;> simp [writtenParts]

theorem cw_mem_writtenParts : Part.cw ∈ writtenParts i ↔ (∃ ch v, i = .wrcw ch v) ∨ i = .rst ∨ (∃ ch, i = .henc ch)
    ∨ i = .henca ∨ i = .extr ∨ i = .encode ∨ i = .decode := by
  cases i <;> simp [writtenParts]

theorem grid_mem_writtenParts : Part.grid ∈ writtenParts i ↔ (∃ r v, i = .wrrow r v) ∨ i = .rst ∨ i = .place ∨ i = .ovl
    ∨ (∃ r c, i = .tog r c) ∨ i = .encode := by
  cases i <;> simp [writtenParts]

end

/-- R34: a command value with an operand out of range is answered as its word would be. -/
theorem exec_of_not_wf {i : Instr} (s : State) (h : i.wf = false) : exec i s = illegalAnswer s := by
  rw [← Bool.not_eq_true] at h
  cases i with
  | wrpay | rdpay | wrmsg | rdmsg => exact withBytePos_of_lt (not_le.mp (bytePosOk_iff.not.mp h))
  | wrrow | rdrow => exact withGridIdx_of_lt (not_le.mp (gridIdxOk_iff.not.mp h))
  | tog row col =>
    rw [Instr.wf, Bool.and_eq_true, gridIdxOk_iff, gridIdxOk_iff] at h
    exact exec_tog_of_lt s (by omega)
  | _ => exact absurd rfl h

/-- Settles O15: a field that changed is in a written part of the table; with an operand out of range a command only answers. -/
theorem statFieldsHaveOnlyTheirWriters : Obligations.StatFieldsHaveOnlyTheirWriters := by
  unfold Obligations.StatFieldsHaveOnlyTheirWriters
  intro i s t h
  have hframe := frame_of_exec h
  refine ⟨fun hptl => ptl_mem_writtenParts.mp (hframe.ptl.resolve_right hptl),
    fun hverdict => verdict_mem_writtenParts.mp (hframe.verdict.resolve_right hverdict),
    fun hcorr => corr_mem_writtenParts.mp (hframe.corr.resolve_right hcorr), fun hwf => ?_⟩
  cases (exec_of_not_wf s hwf).symm.trans h
  rfl

/-- Settles O16: a register that changed is in the written part of the table. -/
theorem registersHaveOnlyTheirWriters : Obligations.RegistersHaveOnlyTheirWriters := by
  unfold Obligations.RegistersHaveOnlyTheirWriters
  intro i s t h
  have hframe := frame_of_exec h
  exact ⟨fun hpay => pay_mem_writtenParts.mp (hframe.pay.resolve_right hpay),
    fun hplen => plen_mem_writtenParts.mp (hframe.plen.resolve_right hplen),
    fun hmsg => msg_mem_writtenParts.mp (hframe.msg.resolve_right hmsg),
    fun hcw => cw_mem_writtenParts.mp (hframe.cw.resolve_right hcw),
    fun hgrid => grid_mem_writtenParts.mp (hframe.grid.resolve_right hgrid), hframe.pending, hframe.draw⟩

end Sys2Proof.Machine
end

section
/-!
The step invariants (spec/10_state.md R19, spec/43_hamming_decoder.md R121): the finder region, and the bound on `STAT.CORR`.
-/

namespace Sys2Proof.Machine

set_option Elab.async false

/-! ### The count of corrected chunks -/

theorem corr_correctedBefore_le (cws : Codewords) {n : Nat} (hn : n ≤ 16) :
    (BitVec.ofNat 5 (correctedBefore cws n)).toNat ≤ 16 := by
  rw [toNat_corr_correctedBefore cws hn]
  exact (correctedBefore_le cws n).trans hn

theorem exec_hdeca_corrBounded {s t : State} (h : exec .hdeca s = .next t) : CorrBounded t := by
  obtain hnone | ⟨ch, hfirst⟩ := noDoubleError_or_first s.cw
  · cases (exec_hdeca_of_noDoubleError hnone).symm.trans h
    exact corr_correctedBefore_le s.cw (Nat.le_refl 16)
  · have ⟨hch, _⟩ := hfirst
    cases (exec_hdeca_of_firstDoubleError hfirst).symm.trans h
    exact corr_correctedBefore_le s.cw (Nat.le_of_lt hch)

theorem exec_decode_corrBounded {s t : State} (h : exec .decode s = .next t) : CorrBounded t := by
  obtain hnone | ⟨ch, hfirst⟩ := noDoubleError_or_first (extract s.grid)
  · cases (exec_decode_of_noDoubleError rfl hnone).symm.trans h
    simpa using corr_correctedBefore_le (extract s.grid) (Nat.le_refl 16)
  · rw [exec_decode_eq_hdeca rfl hfirst] at h
    exact exec_hdeca_corrBounded h

theorem exec_corrBounded {i : Instr} {s t : State} (hs : CorrBounded s) (h : exec i s = .next t) : CorrBounded t := by
  obtain hwritten | hkept := (frame_of_exec h).corr
  · obtain rfl | rfl | rfl := corr_mem_writtenParts.mp hwritten
    · exact exec_hdeca_corrBounded h
    · exact exec_decode_corrBounded h
    · cases h; exact Nat.zero_le 16
  · rwa [CorrBounded, hkept]

/-- Settles O12: of the commands only `HDECA`, `DECODE` and `RST` write `CORR`, and they write a count of chunks or 0. -/
theorem corrStaysAtMostSixteen : Obligations.CorrStaysAtMostSixteen := by
  unfold Obligations.CorrStaysAtMostSixteen
  intro s t hs h
  obtain rfl | ⟨rest, rfl⟩ | ⟨d, rest, rfl⟩ | ⟨w, d, rest, i, -, -, hexec⟩ := step_cases h
  · exact hs
  · exact Nat.zero_le 16
  · exact hs
  · exact exec_corrBounded (s := { s with pending := rest, draw := d }) hs hexec

/-! ### The finder region -/

/-- R143: the fresh grid is an overlay. -/
theorem finderIntact_freshGrid : FinderIntact freshGrid := finderIntact_overlay _

theorem exec_tog_finderIntact {r c : BitVec 5} {s t : State} (hs : FinderIntact s.grid)
    (h : exec (.tog r c) s = .next t) : FinderIntact t.grid := by
  by_cases hout : 19 < r.toNat ∨ 19 < c.toNat
  · cases (exec_tog_of_lt s hout).symm.trans h
    exact hs
  by_cases hfinder : r.toNat < 4 ∨ c.toNat < 4
  · cases (exec_tog_of_finder s (by omega) (by omega) hfinder).symm.trans h
    exact hs
  · cases (exec_tog_of_data s (by omega) (by omega) (by omega) (by omega)).symm.trans h
    exact finderIntact_overlay _

theorem exec_encode_finderIntact {s t : State} (hs : FinderIntact s.grid) (h : exec .encode s = .next t) :
    FinderIntact t.grid := by
  rcases le_or_gt s.plen.toNat 21 with hshort | hlong
  · obtain ⟨m, hm, -⟩ := buildMessage_eq_some s.pay s.draw hshort
    cases (exec_encode_of_some hm).symm.trans h
    exact finderIntact_overlay _
  · cases (exec_encode_of_lt hlong).symm.trans h
    exact hs

theorem exec_finderIntact {i : Instr} {s t : State} (hs : FinderIntact s.grid) (hi : ∀ row v, i ≠ .wrrow row v)
    (h : exec i s = .next t) : FinderIntact t.grid := by
  obtain hwritten | hkept := (frame_of_exec h).grid
  · obtain ⟨row, v, rfl⟩ | rfl | rfl | rfl | ⟨r, c, rfl⟩ | rfl := grid_mem_writtenParts.mp hwritten
    · exact absurd rfl (hi row v)
    · cases h; exact finderIntact_freshGrid
    · cases h; exact finderIntact_overlay _
    · cases h; exact finderIntact_overlay _
    · exact exec_tog_finderIntact hs h
    · exact exec_encode_finderIntact hs h
  · rwa [hkept]

/-- Settles O10: the other writers of `GRID` end with the overlay or leave the grid as it was. -/
theorem finderKeptByEveryOtherStep : Obligations.FinderKeptByEveryOtherStep := by
  unfold Obligations.FinderKeptByEveryOtherStep
  intro s t hs hno h
  obtain rfl | ⟨rest, rfl⟩ | ⟨d, rest, rfl⟩ | ⟨w, d, rest, i, hw, hi, hexec⟩ := step_cases h
  · exact hs
  · exact finderIntact_freshGrid
  · exact hs
  · refine exec_finderIntact (s := { s with pending := rest, draw := d }) hs (fun row v hwrrow => ?_) hexec
    exact hno w d rest row v hw (hwrrow ▸ hi)

/-- Settles O11: each of the five commands ends with the overlay. -/
theorem finderRestored : Obligations.FinderRestored := by
  unfold Obligations.FinderRestored
  intro s
  refine ⟨⟨_, exec_ovl s, finderIntact_overlay _⟩, ⟨_, exec_place s, finderIntact_overlay _⟩,
    ⟨s.resetRegisters.respond .ok 0, rfl, finderIntact_freshGrid⟩, fun hshort => ?_, fun r c hr hr' hc hc' => ?_⟩
  · obtain ⟨m, hm, -⟩ := buildMessage_eq_some s.pay s.draw hshort
    exact ⟨_, exec_encode_of_some hm, finderIntact_overlay _⟩
  · exact ⟨_, exec_tog_of_data s hr (Nat.le_of_lt_succ hr') hc (Nat.le_of_lt_succ hc'), finderIntact_overlay _⟩

end Sys2Proof.Machine
end

section
/-!
The codewords (spec/42_hamming_encoder.md R101, R102): they are the words with an even parity and no failed check, and what
follows for the encoder.
-/

namespace Sys2Proof.Machine

set_option Elab.async false

/-! ### Parity and checks of a word -/

/-- Every index is that of the overall parity, a parity position or a data index. -/
theorem index_cases : ∀ i, i < 16 → i = 0 ∨ i ∈ Config.parityIdx ∨ ∃ j, j < 11 ∧ Config.dataIdx.getD j 0 = i := by decide

theorem covered_eq_cons : ∀ p ∈ Config.parityIdx, covered p = p :: parityInputs p := by decide

/-- A parity bit has data bits for its inputs. -/
theorem parityInputs_data : ∀ p ∈ Config.parityIdx, ∀ i ∈ parityInputs p,
    ∃ j, j < 11 ∧ Config.dataIdx.getD j 0 = i := by decide

theorem parityAt_cons {n : Nat} (x : BitVec n) (i : Nat) (l : List Nat) :
    parityAt x (i :: l) = (x.getLsbD i ^^ parityAt x l) := rfl

theorem overall_eq (r : Codeword) :
    overall r = (r.getLsbD 0 ^^ parityAt r ((List.range 16).filter fun i => i != 0)) := rfl

theorem checkBit_eq (r : Codeword) {p : Nat} (hp : p ∈ Config.parityIdx) :
    checkBit r p = (r.getLsbD p ^^ parityAt r (parityInputs p)) := by
  rw [checkBit, covered_eq_cons p hp, parityAt_cons]

theorem syndrome_eq_zero_iff (r : Codeword) : syndrome r = 0 ↔ ∀ p ∈ Config.parityIdx, checkBit r p = false := by
  obtain ⟨h1, h2, h4, h8⟩ := getLsbD_syndrome r
  constructor
  · intro h
    simp only [h, BitVec.ofNat_eq_ofNat, BitVec.getLsbD_zero] at h1 h2 h4 h8
    simp [← h1, ← h2, ← h4, ← h8]
  · intro h
    simp [syndrome, h]

/-! ### Codewords -/

/-- R102: the parity over all bits of a codeword is even. -/
theorem overall_henc (d : Chunk) : overall (henc d) = false := by
  rw [overall_eq, getLsbD_henc_zero, Bool.xor_self]

/-- R102: every check over a codeword is even. -/
theorem checkBit_henc (d : Chunk) {p : Nat} (hp : p ∈ Config.parityIdx) : checkBit (henc d) p = false := by
  rw [checkBit_eq _ hp, getLsbD_henc_parityIdx d hp, Bool.xor_self]

theorem syndrome_henc (d : Chunk) : syndrome (henc d) = 0 :=
  (syndrome_eq_zero_iff _).mpr fun _ => checkBit_henc d

theorem extractData_henc (d : Chunk) : extractData (henc d) = d :=
  BitVec.eq_of_getLsbD_eq fun j hj => by rw [getLsbD_extractData _ hj, getLsbD_henc_dataIdx d hj]

theorem henc_injective {d e : Chunk} (h : henc d = henc e) : d = e := by
  rw [← extractData_henc d, h, extractData_henc]

/-- A word with an even parity and no failed check is the codeword of its data: its data bits fix the parity bits, and these the
overall parity. -/
theorem henc_extractData {r : Codeword} (ho : overall r = false) (hs : syndrome r = 0) : henc (extractData r) = r := by
  have hdata : ∀ i, (∃ j, j < 11 ∧ Config.dataIdx.getD j 0 = i) → (henc (extractData r)).getLsbD i = r.getLsbD i := by
    rintro _ ⟨j, hj, rfl⟩
    rw [getLsbD_henc_dataIdx _ hj, getLsbD_extractData _ hj]
  have hparity : ∀ p ∈ Config.parityIdx, (henc (extractData r)).getLsbD p = r.getLsbD p := fun p hp => by
    have hcheck := (syndrome_eq_zero_iff r).mp hs p hp
    rw [checkBit_eq r hp, bne_eq_false_iff_eq] at hcheck
    rw [getLsbD_henc_parityIdx _ hp, hcheck]
    exact parityAt_congr fun i hi => hdata i (parityInputs_data p hp i hi)
  have hzero : (henc (extractData r)).getLsbD 0 = r.getLsbD 0 := by
    rw [overall_eq, bne_eq_false_iff_eq] at ho
    rw [getLsbD_henc_zero, ho]
    refine parityAt_congr fun i hi => ?_
    obtain ⟨hlt, hne⟩ := List.mem_filter.mp hi
    obtain rfl | hi | hi := index_cases i (List.mem_range.mp hlt)
    · exact absurd hne (by decide)
    · exact hparity i hi
    · exact hdata i hi
  refine BitVec.eq_of_getLsbD_eq fun i hi => ?_
  obtain rfl | hi | hi := index_cases i hi
  · exact hzero
  · exact hparity i hi
  · exact hdata i hi

theorem extractData_xor (x y : Codeword) : extractData (x ^^^ y) = extractData x ^^^ extractData y :=
  BitVec.eq_of_getLsbD_eq fun j hj => by
    rw [BitVec.getLsbD_xor, getLsbD_extractData _ hj, getLsbD_extractData _ hj, getLsbD_extractData _ hj, BitVec.getLsbD_xor]

/-- R102: the encoder is linear, since the exclusive-or of two codewords is a codeword. -/
theorem henc_xor (d e : Chunk) : henc (d ^^^ e) = henc d ^^^ henc e := by
  have ho : overall (henc d ^^^ henc e) = false := by rw [overall_xor, overall_henc, overall_henc, Bool.xor_self]
  have hs : syndrome (henc d ^^^ henc e) = 0 := by rw [syndrome_xor, syndrome_henc, syndrome_henc, BitVec.xor_self]; rfl
  rw [← henc_extractData ho hs, extractData_xor, extractData_henc, extractData_henc]

theorem henc_zero : henc 0 = 0 := by
  have h := henc_xor 0 0
  rwa [BitVec.xor_self, BitVec.xor_self] at h

/-! ### The codeword bit by bit -/

theorem parityInputs_lists : parityInputs 1 = [3, 5, 7, 9, 11, 13, 15] ∧ parityInputs 2 = [3, 6, 7, 10, 11, 14, 15]
    ∧ parityInputs 4 = [5, 6, 7, 12, 13, 14, 15] ∧ parityInputs 8 = [9, 10, 11, 12, 13, 14, 15] := by decide

/-- R101: the eleven data bits at their places. -/
theorem henc_dataBits (d : Chunk) : (henc d).getLsbD 3 = d.getLsbD 0 ∧ (henc d).getLsbD 5 = d.getLsbD 1
    ∧ (henc d).getLsbD 6 = d.getLsbD 2 ∧ (henc d).getLsbD 7 = d.getLsbD 3 ∧ (henc d).getLsbD 9 = d.getLsbD 4
    ∧ (henc d).getLsbD 10 = d.getLsbD 5 ∧ (henc d).getLsbD 11 = d.getLsbD 6 ∧ (henc d).getLsbD 12 = d.getLsbD 7
    ∧ (henc d).getLsbD 13 = d.getLsbD 8 ∧ (henc d).getLsbD 14 = d.getLsbD 9 ∧ (henc d).getLsbD 15 = d.getLsbD 10 := by
  have hdata : ∀ j, j < 11 → _ := fun j hj => getLsbD_henc_dataIdx d hj
  exact ⟨hdata 0 (by decide), hdata 1 (by decide), hdata 2 (by decide), hdata 3 (by decide), hdata 4 (by decide),
    hdata 5 (by decide), hdata 6 (by decide), hdata 7 (by decide), hdata 8 (by decide), hdata 9 (by decide),
    hdata 10 (by decide)⟩

theorem getLsbD_henc_of_parityInputs (d : Chunk) {p a b c e f g h : Nat} (hp : p ∈ Config.parityIdx)
    (hl : parityInputs p = [a, b, c, e, f, g, h]) : (henc d).getLsbD p = ((henc d).getLsbD a ^^ (henc d).getLsbD b
      ^^ (henc d).getLsbD c ^^ (henc d).getLsbD e ^^ (henc d).getLsbD f ^^ (henc d).getLsbD g ^^ (henc d).getLsbD h) := by
  rw [getLsbD_henc_parityIdx d hp, hl]
  simp only [parityAt, List.map_cons, List.map_nil, xorAll_cons, xorAll_nil, Bool.xor_false, Bool.xor_assoc]

/-- R101: the four Hamming parity bits. -/
theorem henc_parityBits (d : Chunk) :
    (henc d).getLsbD 1 = (d.getLsbD 0 ^^ d.getLsbD 1 ^^ d.getLsbD 3 ^^ d.getLsbD 4 ^^
      d.getLsbD 6 ^^ d.getLsbD 8 ^^ d.getLsbD 10)
    ∧ (henc d).getLsbD 2 = (d.getLsbD 0 ^^ d.getLsbD 2 ^^ d.getLsbD 3 ^^ d.getLsbD 5 ^^
      d.getLsbD 6 ^^ d.getLsbD 9 ^^ d.getLsbD 10)
    ∧ (henc d).getLsbD 4 = (d.getLsbD 1 ^^ d.getLsbD 2 ^^ d.getLsbD 3 ^^ d.getLsbD 7 ^^
      d.getLsbD 8 ^^ d.getLsbD 9 ^^ d.getLsbD 10)
    ∧ (henc d).getLsbD 8 = (d.getLsbD 4 ^^ d.getLsbD 5 ^^ d.getLsbD 6 ^^ d.getLsbD 7 ^^
      d.getLsbD 8 ^^ d.getLsbD 9 ^^ d.getLsbD 10) := by
  obtain ⟨hi1, hi2, hi4, hi8⟩ := parityInputs_lists
  obtain ⟨h3, h5, h6, h7, h9, h10, h11, h12, h13, h14, h15⟩ := henc_dataBits d
  rw [getLsbD_henc_of_parityInputs d (by decide) hi1, getLsbD_henc_of_parityInputs d (by decide) hi2,
    getLsbD_henc_of_parityInputs d (by decide) hi4, getLsbD_henc_of_parityInputs d (by decide) hi8]
  simp only [h3, h5, h6, h7, h9, h10, h11, h12, h13, h14, h15, and_self]

/-- The Hamming parities of eleven bits taken together with the bits themselves: a bit that an odd number of the four contain
cancels. -/
theorem xor_parities (a b c d e f g h i j k : Bool) :
    xorAll [a ^^ b ^^ d ^^ e ^^ g ^^ i ^^ k, a ^^ c ^^ d ^^ f ^^ g ^^ j ^^ k, a, b ^^ c ^^ d ^^ h ^^ i ^^ j ^^ k, b, c, d,
      e ^^ f ^^ g ^^ h ^^ i ^^ j ^^ k, e, f, g, h, i, j, k] = (a ^^ b ^^ c ^^ e ^^ f ^^ h ^^ k) := by
  simp [Bool.xor_left_comm, Bool.xor_comm]

/-- R101: the overall parity bit. -/
theorem henc_overallBit (d : Chunk) : (henc d).getLsbD 0 =
    (d.getLsbD 0 ^^ d.getLsbD 1 ^^ d.getLsbD 2 ^^ d.getLsbD 4 ^^ d.getLsbD 5 ^^ d.getLsbD 7 ^^ d.getLsbD 10) := by
  obtain ⟨h3, h5, h6, h7, h9, h10, h11, h12, h13, h14, h15⟩ := henc_dataBits d
  obtain ⟨h1, h2, h4, h8⟩ := henc_parityBits d
  have hrange : (List.range 16).filter (fun i => i != 0) = [1, 2, 3, 4, 5, 6, 7, 8, 9, 10, 11, 12, 13, 14, 15] := by decide
  rw [getLsbD_henc_zero, hrange, parityAt]
  simp only [List.map_cons, List.map_nil, h1, h2, h3, h4, h5, h6, h7, h8, h9, h10, h11, h12, h13, h14, h15]
  exact xor_parities ..

/-- Settles O33: the parity bits are the parities of the data bits they cover, the overall bit that of all the others. -/
theorem encoderBitByBit : Obligations.EncoderBitByBit := by
  unfold Obligations.EncoderBitByBit
  obtain ⟨hc1, hc2, hc4, hc8⟩ := covered_eq
  refine ⟨hc1, hc2, hc4, hc8, fun d => ?_, by decide⟩
  obtain ⟨h1, h2, h4, h8⟩ := henc_parityBits d
  exact ⟨h1, h2, h4, h8, henc_overallBit d, henc_dataBits d⟩

end Sys2Proof.Machine
end

section
/-!
Received words near a codeword (spec/43_hamming_decoder.md R110, R115 to R117, spec/42_hamming_encoder.md R102): what flipped bits
do to the syndrome and the parity, and so to the verdict.
-/

namespace Sys2Proof.Machine

set_option Elab.async false

/-! ### The syndrome as an exclusive-or of indices -/

theorem xorAll_map_and {α : Type} (l : List α) (f p : α → Bool) :
    xorAll (l.map fun i => f i && p i) = xorAll ((l.filter p).map f) := by
  induction l with
  | nil => rfl
  | cons i l ih =>
    cases hp : p i
    case false => simp [hp, ih]
    case true => simp [hp, ih]

/-- Bit `b` of the exclusive-or of the indices picked by `f`. -/
theorem getLsbD_foldl_xor_indices (f : Nat → Bool) (l : List Nat) (acc : BitVec 4) (b : Nat) :
    (l.foldl (fun acc i => if f i then acc ^^^ BitVec.ofNat 4 i else acc) acc).getLsbD b
      = (acc.getLsbD b ^^ xorAll (l.map fun i => f i && (BitVec.ofNat 4 i).getLsbD b)) := by
  induction l generalizing acc with
  | nil => simp
  | cons i l ih =>
    rw [List.foldl_cons, ih]
    cases hf : f i
    case false => simp [hf]
    case true => simp [hf]

/-- The indices with bit `b` set are those that parity position `2 ^ b` covers. -/
theorem filter_getLsbD_eq_covered : ∀ b, b < 4 →
    (List.range 16).filter (fun i => (BitVec.ofNat 4 i).getLsbD b) = covered (2 ^ b) := by decide

theorem getLsbD_syndrome_eq_checkBit (r : Codeword) {b : Nat} (hb : b < 4) :
    (syndrome r).getLsbD b = checkBit r (2 ^ b) := by
  obtain ⟨h0, h1, h2, h3⟩ := getLsbD_syndrome r
  interval_cases b
  · exact h0
  · exact h1
  · exact h2
  · exact h3

/-- Settles O39: bit `b` of either side is the parity of the bits whose index has bit `b` set. -/
theorem syndromeIsTheXorOfIndices : Obligations.SyndromeIsTheXorOfIndices := by
  unfold Obligations.SyndromeIsTheXorOfIndices
  refine fun r => BitVec.eq_of_getLsbD_eq fun b hb => ?_
  rw [getLsbD_foldl_xor_indices, xorAll_map_and, filter_getLsbD_eq_covered b hb, getLsbD_syndrome_eq_checkBit r hb]
  simp [checkBit, parityAt]

/-! ### One flipped bit -/

theorem syndrome_twoPow : ∀ k, k < 16 → syndrome (BitVec.twoPow 16 k) = BitVec.ofNat 4 k := by decide

theorem overall_twoPow : ∀ k, k < 16 → overall (BitVec.twoPow 16 k) = true := by decide

theorem flipBit_flipBit (r : Codeword) (k : Nat) : flipBit (flipBit r k) k = r := by
  rw [flipBit, flipBit, BitVec.xor_assoc, BitVec.xor_self, BitVec.xor_zero]

section
variable (r : Codeword) {k : Nat} (hk : k < 16)
include hk

/-- R110: a flipped bit adds its index to the syndrome. -/
theorem syndrome_flipBit : syndrome (flipBit r k) = syndrome r ^^^ BitVec.ofNat 4 k := by
  rw [flipBit, syndrome_xor, syndrome_twoPow k hk]

/-- R111: a flipped bit changes the parity. -/
theorem overall_flipBit : overall (flipBit r k) = !overall r := by
  rw [flipBit, overall_xor, overall_twoPow k hk, Bool.xor_true]

end

section
variable (d : Chunk) {k : Nat} (hk : k < 16)
include hk

/-- R115: the syndrome of a singly corrupted codeword is the index of the flipped bit. -/
theorem syndrome_flipBit_henc : syndrome (flipBit (henc d) k) = BitVec.ofNat 4 k := by
  rw [syndrome_flipBit _ hk, syndrome_henc]
  exact BitVec.zero_xor

theorem overall_flipBit_henc : overall (flipBit (henc d) k) = true := by
  rw [overall_flipBit _ hk, overall_henc, Bool.not_false]

theorem correctedWord_flipBit_henc : correctedWord (flipBit (henc d) k) = henc d := by
  rw [correctedWord_of_overall (overall_flipBit_henc d hk), syndrome_flipBit_henc d hk, BitVec.toNat_ofNat,
    Nat.mod_eq_of_lt hk, flipBit_flipBit]

end

/-- Settles O40: the parity is odd and the syndrome points at the flipped bit, so the correction flips it back. -/
theorem singleErrorsAreCorrected : Obligations.SingleErrorsAreCorrected := by
  unfold Obligations.SingleErrorsAreCorrected
  intro d k hk
  have ho := overall_flipBit_henc d hk
  have hfixed := correctedWord_flipBit_henc d hk
  rw [overall_hdec, syndrome_hdec, corrected_hdec, doubleError_hdec, data_hdec, fixed_hdec, ho, hfixed]
  exact ⟨rfl, syndrome_flipBit_henc d hk, rfl, rfl, rfl, extractData_henc d⟩

/-! ### Two flipped bits -/

/-- Settles O41: two flipped bits restore the parity, and their different indices leave a syndrome. -/
theorem doubleErrorsAreDetected : Obligations.DoubleErrorsAreDetected := by
  unfold Obligations.DoubleErrorsAreDetected
  intro d j k hj hk hne
  have ho : overall (flipBit (flipBit (henc d) j) k) = false := by
    rw [overall_flipBit _ hk, overall_flipBit_henc d hj, Bool.not_true]
  have hs : syndrome (flipBit (flipBit (henc d) j) k) ≠ 0 := by
    rw [syndrome_flipBit _ hk, syndrome_flipBit_henc d hj]
    intro h
    have hidx := congrArg BitVec.toNat (BitVec.xor_eq_zero_iff.mp h)
    rw [BitVec.toNat_ofNat, BitVec.toNat_ofNat, Nat.mod_eq_of_lt hj, Nat.mod_eq_of_lt hk] at hidx
    exact hne hidx
  rw [overall_hdec, syndrome_hdec, corrected_hdec, doubleError_hdec, ho]
  exact ⟨rfl, hs, decide_eq_true hs, rfl⟩

/-! ### No flipped bit, and every accepted word -/

/-- R102: the verdict on a codeword is clean. -/
theorem hdec_henc (d : Chunk) :
    (hdec (henc d)).corrected = false ∧ (hdec (henc d)).doubleError = false ∧ (hdec (henc d)).data = d := by
  have ho := overall_henc d
  rw [corrected_hdec, doubleError_hdec, data_hdec, fixed_hdec, correctedWord_of_not_overall ho, ho, syndrome_henc]
  exact ⟨rfl, rfl, extractData_henc d⟩

/-- The word after the correction of an odd parity has an even one and no failed check. -/
theorem henc_extractData_correctedWord {r : Codeword} (h : (hdec r).doubleError = false) :
    henc (extractData (correctedWord r)) = correctedWord r := by
  rw [doubleError_hdec] at h
  cases ho : overall r
  case false =>
    rw [ho, Bool.not_false, Bool.true_and, decide_eq_false_iff_not, not_not] at h
    rw [correctedWord_of_not_overall ho]
    exact henc_extractData ho h
  case true =>
    have hk := (syndrome r).isLt
    rw [correctedWord_of_overall ho]
    refine henc_extractData (by rw [overall_flipBit r hk, ho, Bool.not_true]) ?_
    rw [syndrome_flipBit r hk, BitVec.ofNat_toNat, BitVec.setWidth_eq, BitVec.xor_self]
    rfl

/-- Settles O42: the corrected word is a codeword, and the received word is the corrected one or that with the flipped bit
flipped back. -/
theorem acceptedWordsAreNearCodewords : Obligations.AcceptedWordsAreNearCodewords := by
  unfold Obligations.AcceptedWordsAreNearCodewords
  intro r h
  rw [data_hdec, fixed_hdec, henc_extractData_correctedWord h]
  refine ⟨rfl, ?_⟩
  cases ho : overall r
  case false => exact .inl (correctedWord_of_not_overall ho).symm
  case true =>
    refine .inr ⟨_, (syndrome r).isLt, ?_⟩
    rw [correctedWord_of_overall ho, flipBit_flipBit]

/-! ### The least weight of a codeword -/

theorem xorAll_eq_count (l : List Bool) : xorAll l = decide (l.count true % 2 = 1) := by
  induction l with
  | nil => rfl
  | cons b l ih =>
    cases b
    case false => simpa using ih
    case true =>
      rw [xorAll_cons, ih, List.count_cons_self, Bool.true_xor, ← decide_not]
      exact decide_eq_decide.mpr (by omega)

/-- The indices of the set bits of a word. -/
def setIndices (r : Codeword) : Finset Nat := (Finset.range 16).filter fun i => r.getLsbD i = true

theorem count_bitsOf (r : Codeword) : (bitsOf r).count true = (setIndices r).card := by
  rw [bitsOf, List.count_eq_countP, List.countP_map, List.countP_eq_length_filter]
  exact congrArg List.length (List.filter_congr fun i _ => by simp)

theorem mem_setIndices {r : Codeword} {i : Nat} : i ∈ setIndices r ↔ r.getLsbD i = true := by
  rw [setIndices, Finset.mem_filter, Finset.mem_range, and_iff_right_iff_imp]
  exact BitVec.lt_of_getLsbD

/-- A word is fixed by its set bits. -/
theorem eq_of_setIndices_eq {r q : Codeword} (h : setIndices r = setIndices q) : r = q :=
  BitVec.eq_of_getLsbD_eq fun i _ => by rw [Bool.eq_iff_iff, ← mem_setIndices, ← mem_setIndices, h]

theorem setIndices_zero : setIndices 0 = ∅ := by decide

theorem setIndices_flipBit_flipBit {j k : Nat} (hj : j < 16) (hk : k < 16) (hne : j ≠ k) :
    setIndices (flipBit (flipBit 0 j) k) = {j, k} := by
  ext i
  have hbit : (flipBit (flipBit 0 j) k).getLsbD i = (decide (i = j) ^^ decide (i = k)) := by
    simp [flipBit, hj, hk, eq_comm]
  rw [mem_setIndices, hbit, Finset.mem_insert, Finset.mem_singleton]
  by_cases hij : i = j
  · simp [hij, hne]
  · simp [hij]

/-- R102: a nonzero codeword has an even number of set bits, not none, and not two, which would be a double error of the
codeword 0. -/
theorem four_le_count_henc {d : Chunk} (hd : d ≠ 0) : 4 ≤ (bitsOf (henc d)).count true := by
  have heven : ¬(bitsOf (henc d)).count true % 2 = 1 := by
    rw [← decide_eq_false_iff_not, ← xorAll_eq_count]
    exact overall_henc d
  have hnotZero : (setIndices (henc d)).card ≠ 0 := fun h => by
    rw [Finset.card_eq_zero, ← setIndices_zero] at h
    exact hd (henc_injective ((eq_of_setIndices_eq h).trans henc_zero.symm))
  have hnotTwo : (setIndices (henc d)).card ≠ 2 := fun h => by
    obtain ⟨j, k, hne, hset⟩ := Finset.card_eq_two.mp h
    have hlt : ∀ i ∈ ({j, k} : Finset Nat), i < 16 := fun i hi => BitVec.lt_of_getLsbD (mem_setIndices.mp (hset ▸ hi))
    have hj := hlt j (by simp)
    have hk := hlt k (by simp)
    have hword : henc d = flipBit (flipBit (henc 0) j) k := by
      rw [henc_zero]
      exact eq_of_setIndices_eq (hset.trans (setIndices_flipBit_flipBit hj hk hne).symm)
    obtain ⟨-, -, hdouble, -⟩ := doubleErrorsAreDetected 0 j k hj hk hne
    obtain ⟨-, hclean, -⟩ := hdec_henc d
    rw [hword, hdouble] at hclean
    cases hclean
  rw [count_bitsOf] at heven ⊢
  omega

/-- Settles O34: a codeword is a word with an even parity and no failed check, which is kept by exclusive-or and tells how many
bits it can have. -/
theorem encoderProperties : Obligations.EncoderProperties := by
  unfold Obligations.EncoderProperties
  exact ⟨fun d => ⟨overall_henc d, getLsbD_henc_zero d⟩, fun d p hp => checkBit_henc d hp, henc_xor, henc_zero,
    fun _ _ => henc_injective, fun d _ => getLsbD_henc_dataIdx d, hdec_henc, fun _ => four_le_count_henc⟩

end Sys2Proof.Machine
end

section
/-!
The message that `build_message` makes (spec/41_bitpacker.md R82, R91): its bytes, and where the terminator scan of them ends.
-/

namespace Sys2Proof.Machine

set_option Elab.async false

/-! ### The bytes of a built message -/

theorem byteOf_false : byteOf (fun _ => false) = 0 := by decide

section
variable {payload : Payload} {n : Nat} {rnd : Draw} {m : Message} (hn : n ≤ 21) (hm : buildMessage payload n rnd = some m)
include hn hm

/-- R83: payload, terminator and filler, bit by bit. -/
theorem getLsbD_buildMessage {k : Nat} (hk : k < 176) : m.getLsbD k =
    if k < 8 * n then (readAt payload (k / 8)).getLsbD (7 - k % 8)
    else if k < 8 * n + 8 then false
    else rnd.getLsbD (k - (8 * n + 8)) := by
  obtain ⟨m', hm', hbits⟩ := buildMessage_eq_some payload rnd hn
  cases hm'.symm.trans hm
  exact hbits k hk

theorem getD_messageBytes_payload {k : Nat} (d : Byte) (hk : k < n) : (messageBytes m).getD k d = readAt payload k := by
  rw [getD_messageBytes m d (by omega), msgByte, ← byteOf_bits_msbFirst (readAt payload k)]
  refine byteOf_congr fun j hj => ?_
  have hdiv : (8 * k + j) / 8 = k := by omega
  have hmod : (8 * k + j) % 8 = j := by omega
  rw [getLsbD_buildMessage hn hm (by omega), if_pos (by omega), hdiv, hmod]

theorem getD_messageBytes_terminator (d : Byte) : (messageBytes m).getD n d = 0 := by
  rw [getD_messageBytes m d (by omega), msgByte, ← byteOf_false]
  refine byteOf_congr fun j hj => ?_
  rw [getLsbD_buildMessage hn hm (by omega), if_neg (by omega), if_pos (by omega)]

/-! ### The terminator scan -/

theorem termScan_messageBytes_of_nonzero (hpay : ∀ k, k < n → readAt payload k ≠ 0) : termScan (messageBytes m) = n :=
  termScan_eq (by rw [length_messageBytes]; omega) (getD_messageBytes_terminator hn hm 0) fun k hk => by
    rw [getD_messageBytes_payload hn hm 0 hk]
    exact hpay k hk

theorem termScan_messageBytes_of_zero {z : Nat} (hz : z < n) (hzero : readAt payload z = 0)
    (hpay : ∀ k, k < z → readAt payload k ≠ 0) : termScan (messageBytes m) = z :=
  termScan_eq (by rw [length_messageBytes]; omega) (by rw [getD_messageBytes_payload hn hm 0 hz, hzero]) fun k hk => by
    rw [getD_messageBytes_payload hn hm 0 (hk.trans hz)]
    exact hpay k hk

/-- The terminator stops the scan, if a payload byte has not. -/
theorem termScan_messageBytes_le_length : termScan (messageBytes m) ≤ n :=
  not_lt.mp fun h => termScan_before h (getD_messageBytes_terminator hn hm 0)

end

/-! ### `pack` after `unpack` -/

/-- R82: what `pack` after `unpack` adds fills the last byte with zeros. -/
theorem pack_unpack_eq_append (bits : List Bool) :
    pack (unpack bits) = bits ++ List.replicate (8 * ((bits.length + 7) / 8) - bits.length) false := by
  refine list_ext_getD false ?_ fun i hi => ?_
  · rw [length_pack, length_unpack, List.length_append, List.length_replicate]
    omega
  · rw [List.length_append, List.length_replicate] at hi
    rw [getD_pack_unpack bits (by omega)]
    rcases Nat.lt_or_ge i bits.length with h | h
    · rw [List.getD_append _ _ _ _ h]
    · rw [List.getD_append_right _ _ _ _ h, List.getD_eq_default _ _ h]
      exact (List.getD_replicate _ (by omega)).symm

/-- Settles O28: the bytes of the message are the payload and then the terminator, and the scan ends at the first zero. -/
theorem bitpackerFacts : Obligations.BitpackerFacts := by
  unfold Obligations.BitpackerFacts
  refine ⟨fun payload n rnd m hn hm => ⟨?_, fun k hk => getD_messageBytes_payload hn hm 0 hk,
    getD_messageBytes_terminator hn hm 1, termScan_messageBytes_of_nonzero hn hm,
    fun z hz hzero hpay => termScan_messageBytes_of_zero hn hm hz hzero hpay,
    (termScan_messageBytes_le_length hn hm).trans hn⟩, fun bits => ⟨_, ?_, pack_unpack_eq_append bits⟩⟩
  · simp only [fillerCount, Config.msgBits]
    omega
  · omega

end Sys2Proof.Machine
end

section
/-!
The mapper's inverses (spec/44_chunk_grid_mapper.md R132, R135) and the overlay in closed form (spec/45_grid_overlay.md R141,
R142).
-/

namespace Sys2Proof.Machine

set_option Elab.async false

/-! ### `cell_of` and `bit_of`, `place` and `extract` -/

section
variable {r c : Nat} (hr : 4 ≤ r) (hr' : r ≤ 19) (hc : 4 ≤ c) (hc' : c ≤ 19)
include hr hr' hc hc'

/-- R132: a data cell holds a bit of a codeword. -/
theorem bitOf_lt : (bitOf r c).1 < 16 ∧ (bitOf r c).2 < 16 := by
  simp only [bitOf]; omega

/-- R132: `cell_of` undoes `bit_of`. -/
theorem cellOf_bitOf : cellOf (bitOf r c).1 (bitOf r c).2 = (r, c) := by
  simp only [bitOf, cellOf_eq, Prod.mk.injEq]; omega

end

/-- R135: `extract` undoes `place`. -/
theorem extract_placeCells (cws : Codewords) (g : Grid) : extract (placeCells cws g) = cws :=
  readAt_ext fun ch hch => BitVec.eq_of_getLsbD_eq fun b hb => by
    rw [getLsbD_extract _ hb hch, gridCell_placeCells_cellOf hb hch]

/-- R135: `place` of what was extracted gives the data region back. -/
theorem sameDataRegion_placeCells_extract (g h : Grid) : SameDataRegion g (placeCells (extract g) h) :=
  fun r hr hr' c hc hc' => by
    obtain ⟨hb, hch⟩ := bitOf_lt hr (Nat.le_of_lt_succ hr') hc (Nat.le_of_lt_succ hc')
    rw [gridCell_placeCells _ _ hr' hc', inFinder_eq_false_iff.mpr ⟨hr, hc⟩, if_neg Bool.false_ne_true,
      getLsbD_extract g hb hch, cellOf_bitOf hr (Nat.le_of_lt_succ hr') hc (Nat.le_of_lt_succ hc')]

/-- Settles O46: the two maps of coordinates undo each other, so each data cell holds one codeword bit and no other. -/
theorem mapperIsBijective : Obligations.MapperIsBijective := by
  unfold Obligations.MapperIsBijective
  refine ⟨fun b ch hb hch => ?_, fun r c hr hr' hc hc' => ?_, extract_placeCells, sameDataRegion_placeCells_extract⟩
  · obtain ⟨hr, hr', hc, hc'⟩ := cellOf_dataRegion hb hch
    exact ⟨bitOf_cellOf hb hch, hr, Nat.le_of_lt_succ hr', hc, Nat.le_of_lt_succ hc'⟩
  · exact ⟨cellOf_bitOf hr hr' hc hc', bitOf_lt hr hr' hc hc'⟩

/-! ### The overlay -/

/-- R141: the pattern in closed form. -/
theorem finder_eq (r c : Nat) : finder r c =
    decide (r = 0 ∨ c = 0 ∨ (r = 2 ∧ 2 ≤ c) ∨ (c = 2 ∧ 2 ≤ r) ∨ (r, c) ∈ [(1, 3), (3, 1), (1, 19), (19, 1)]) := by
  simp [finder, isMarker, Bool.or_assoc, beq_eq_decide]

/-- Settles O49: the overlay writes the pattern into the finder cells and is nothing but these writes. -/
theorem overlayPattern : Obligations.OverlayPattern := by
  unfold Obligations.OverlayPattern
  refine ⟨fun g r hr c hc => ?_, by decide +kernel, by decide +kernel,
    fun g => overlay_eq_self_of_finderIntact (finderIntact_overlay g), fun g h r hr c hc hfinder => ?_⟩
  · rw [gridCell_overlay g hr hc, ← finder_eq]
    exact if_congr inFinder_iff rfl rfl
  · rw [finderIntact_overlay g r hr c hc hfinder, finderIntact_overlay h r hr c hc hfinder]

end Sys2Proof.Machine
end

section
/-!
The grid of a message and its decoding (spec/46_pipelines.md R150 to R159): what sixteen codewords with at most one flipped bit
each decode to, and what a toggle does to them.
-/

namespace Sys2Proof.Machine

set_option Elab.async false

/-! ### The codewords and the grid of a message -/

/-- The sixteen codewords of a message (R104). -/
def codewordsOf (m : Message) : Codewords := tabulate 16 fun ch => henc (readAt (split m) ch)

/-- The grid that `ENCODE` makes of a message (R150). -/
def messageGrid (m : Message) : Grid := overlay (placeCells (codewordsOf m) freshGrid)

theorem readAt_codewordsOf (m : Message) {ch : Nat} (hch : ch < 16) : readAt (codewordsOf m) ch = henc (chunkOf m ch) := by
  rw [codewordsOf, readAt_tabulate _ hch, readAt_split m hch]

theorem extract_overlay (g : Grid) : extract (overlay g) = extract g :=
  extract_eq_of_sameDataRegion (sameDataRegion_overlay g)

theorem extract_messageGrid (m : Message) : extract (messageGrid m) = codewordsOf m := by
  rw [messageGrid, extract_overlay, extract_placeCells]

/-- A grid holds one message only: `extract`, the data of the codewords and `join` lead back to it. -/
theorem messageGrid_injective {m m' : Message} (h : messageGrid m = messageGrid m') : m = m' := by
  have hcw : codewordsOf m = codewordsOf m' := by rw [← extract_messageGrid, h, extract_messageGrid]
  rw [← join_split m, ← join_split m']
  refine congrArg join (readAt_ext fun ch hch => henc_injective ?_)
  rw [readAt_split m hch, readAt_split m' hch, ← readAt_codewordsOf m hch, hcw, readAt_codewordsOf m' hch]

theorem encodeBytes_eq_messageGrid {payload : Payload} {n : Nat} {rnd : Draw} {m : Message}
    (h : buildMessage payload n rnd = some m) : encodeBytes payload n rnd = some (messageGrid m) := by
  rw [encodeBytes, h]
  rfl

/-- R151 with the codewords and the grid as functions of the message. -/
theorem exec_encode_eq_messageGrid {s : State} {m : Message} (h : buildMessage s.pay s.plen.toNat s.draw = some m) :
    exec .encode s = .next { s with
      msg := m, cw := codewordsOf m, grid := messageGrid m, stat := { s.stat with ptl := false },
      responses := ⟨.ok, BitVec.ofNat 20 (168 - 8 * s.plen.toNat)⟩ :: s.responses } := by
  have hgrid : (placeOp (hencaOp (s.withMsg m))).grid = messageGrid m := overlay_placeCells_eq (codewordsOf m) s.grid freshGrid
  rw [exec_encode_of_some h, hgrid]
  rfl

/-! ### Codewords as received -/

/-- A codeword with one bit flipped, or none. -/
def flipAt (r : Codeword) : Option Nat → Codeword
  | none => r
  | some b => flipBit r b

theorem getLsbD_flipBit (r : Codeword) {b k : Nat} (hb : b < 16) :
    (flipBit r k).getLsbD b = (r.getLsbD b ^^ decide (b = k)) := by
  rw [flipBit, BitVec.getLsbD_xor, BitVec.getLsbD_twoPow]
  by_cases h : b = k
  · subst h; simp [hb]
  · simp [h, Ne.symm h]

theorem getLsbD_flipAt (r : Codeword) (hit : Option Nat) {b : Nat} (hb : b < 16) :
    (flipAt r hit).getLsbD b = (r.getLsbD b ^^ decide (hit = some b)) := by
  cases hit with
  | none => simp [flipAt]
  | some k => rw [flipAt, getLsbD_flipBit r hb]; simp [eq_comm]

/-- In the first `n` chunks, `cws` holds the codewords of `m` with the bits flipped that `hit` names. -/
def Received (cws : Codewords) (m : Message) (hit : Nat → Option Nat) (n : Nat) : Prop :=
  ∀ ch, ch < n → (∀ b, hit ch = some b → b < 16) ∧ readAt cws ch = flipAt (henc (chunkOf m ch)) (hit ch)

/-- How many of the sixteen chunks are hit. -/
def hitCount (hit : Nat → Option Nat) : Nat := ((List.range 16).filter fun ch => (hit ch).isSome).length

/-- R115: the verdict on a codeword with at most one bit flipped. -/
theorem hdec_flipAt_henc (d : Chunk) {hit : Option Nat} (hb : ∀ b, hit = some b → b < 16) :
    (hdec (flipAt (henc d) hit)).corrected = hit.isSome ∧ (hdec (flipAt (henc d) hit)).doubleError = false
      ∧ (hdec (flipAt (henc d) hit)).data = d := by
  cases hit with
  | none => exact hdec_henc d
  | some b =>
    obtain ⟨-, -, hcorrected, hdouble, -, hdata⟩ := singleErrorsAreCorrected d b (hb b rfl)
    exact ⟨hcorrected, hdouble, hdata⟩

section
variable {cws : Codewords} {m : Message} {hit : Nat → Option Nat}

theorem hdec_of_received {n ch : Nat} (h : Received cws m hit n) (hch : ch < n) :
    (hdec (readAt cws ch)).corrected = (hit ch).isSome ∧ (hdec (readAt cws ch)).doubleError = false
      ∧ (hdec (readAt cws ch)).data = chunkOf m ch := by
  obtain ⟨hb, hword⟩ := h ch hch
  rw [hword]
  exact hdec_flipAt_henc _ hb

variable (h : Received cws m hit 16)
include h

theorem noDoubleError_of_received : NoDoubleError cws := fun _ hch => (hdec_of_received h hch).2.1

theorem correctedBefore_of_received : correctedBefore cws 16 = hitCount hit :=
  congrArg List.length (List.filter_congr fun _ hch => (hdec_of_received h (List.mem_range.mp hch)).1)

/-- The data of all chunks is the message. -/
theorem joinList_of_received : joinList (dataBefore cws 16) = m := by
  refine BitVec.eq_of_getLsbD_eq fun k hk => ?_
  obtain ⟨-, -, hdata⟩ := hdec_of_received h (show k / 11 < 16 by omega)
  rw [getLsbD_joinList_dataBefore cws hk, hdata, getLsbD_chunkOf, decide_eq_true (Nat.mod_lt k (by decide)), Bool.true_and,
    Nat.div_add_mod]

end

/-! ### Decoding what was received -/

section
variable {m : Message} {hit : Nat → Option Nat}

/-- R153 on a grid with at most one bit flipped in each chunk. -/
theorem decodeGrid_of_received {g : Grid} (h : Received (extract g) m hit 16) :
    decodeGrid g = .decoded (messageBytes m) (termScan (messageBytes m)) (hitCount hit) := by
  rw [decodeGrid, scanChunks_accepted (noDoubleError_of_received h), correctedBefore_of_received h, ← joinList_of_received h]

/-- R154 on such a grid. -/
theorem exec_decode_of_received {s : State} (h : Received (extract s.grid) m hit 16) :
    ∃ u, exec .decode s = .next u ∧ u.plen.toNat = termScan (messageBytes m)
      ∧ (∀ k, k < 22 → readAt u.pay k = (messageBytes m).getD k 0) ∧ u.stat.corr = BitVec.ofNat 5 (hitCount hit)
      ∧ u.responses = ⟨.ok, BitVec.ofNat 20 (termScan (messageBytes m) + 32 * hitCount hit)⟩ :: s.responses := by
  have hmsg : (hdecaAcceptAll (s.withCw (extract s.grid))).msg = m := joinList_of_received h
  have hcount := correctedBefore_of_received h
  refine ⟨_, exec_decode_of_noDoubleError rfl (noDoubleError_of_received h), ?_, fun k hk => ?_, ?_, ?_⟩
  · rw [State.respond_plen, toNat_unpkOp_plen, hmsg]
  · rw [State.respond_pay, readAt_unpkOp_pay _ hk, hmsg]
  · rw [State.respond_stat, unpkOp_stat, hdecaAcceptAll_stat_corr, State.withCw_cw, hcount]
  · rw [State.respond_responses, toNat_unpkOp_plen, hmsg, hcount]
    simp

end

/-! ### Flipped cells as flipped bits -/

theorem received_codewordsOf (m : Message) : Received (codewordsOf m) m (fun _ => none) 16 :=
  fun _ hch => ⟨fun _ hb => (nomatch hb), readAt_codewordsOf m hch⟩

theorem received_of_hitOncePerChunk {m : Message} {h : Grid} {hit : Nat → Option Nat} {n : Nat} (hn : n ≤ 16)
    (hhit : HitOncePerChunk (messageGrid m) h hit fun ch => ch < n) : Received (extract h) m hit n := fun ch hch => by
  have hch16 : ch < 16 := by omega
  obtain ⟨hb, hcell⟩ := hhit ch hch16 hch
  refine ⟨hb, BitVec.eq_of_getLsbD_eq fun b hb16 => ?_⟩
  rw [getLsbD_extract h hb16 hch16, hcell b hb16, ← getLsbD_extract _ hb16 hch16, extract_messageGrid,
    readAt_codewordsOf m hch16, getLsbD_flipAt _ _ hb16]

theorem cellOf_eq_iff {b ch j i : Nat} (hb : b < 16) (hch : ch < 16) (hj : j < 16) (hi : i < 16) :
    (cellOf b ch).1 = (cellOf j i).1 ∧ (cellOf b ch).2 = (cellOf j i).2 ↔ b = j ∧ ch = i := by
  constructor
  · rintro ⟨hr, hc⟩
    have hpair : (b, ch) = (j, i) := by rw [← bitOf_cellOf hb hch, hr, hc, bitOf_cellOf hj hi]
    exact Prod.mk.injEq .. ▸ hpair
  · rintro ⟨rfl, rfl⟩
    exact ⟨rfl, rfl⟩

/-- The one chunk hit by a toggle of the cell of bit `j` of chunk `i`. -/
def hitAt (i j : Nat) : Nat → Option Nat := fun ch => if ch = i then some j else none

theorem hitCount_hitAt {i : Nat} (j : Nat) (hi : i < 16) : hitCount (hitAt i j) = 1 := by
  have hone : (List.range 16).count i = 1 := List.count_eq_one_of_mem List.nodup_range (List.mem_range.mpr hi)
  rw [hitCount, ← hone, List.count_eq_countP, List.countP_eq_length_filter]
  refine congrArg List.length (List.filter_congr fun ch _ => ?_)
  by_cases h : ch = i
  · simp [hitAt, h]
  · simp [hitAt, h]

/-- The grid after a `TOG` of the cell of bit `j` of chunk `i` (R146). -/
def toggleBit (g : Grid) (i j : Nat) : Grid := overlay (toggleCell g (cellOf j i).1 (cellOf j i).2)

section
variable {i j : Nat} (hi : i < 16) (hj : j < 16)
include hi hj

/-- R144 seen from the codewords: a toggled data cell is one flipped bit. -/
theorem readAt_extract_toggleBit (g : Grid) {ch : Nat} (hch : ch < 16) :
    readAt (extract (toggleBit g i j)) ch = flipAt (readAt (extract g) ch) (hitAt i j ch) := by
  rw [toggleBit, extract_overlay]
  refine BitVec.eq_of_getLsbD_eq fun b hb => ?_
  obtain ⟨-, hr, -, hc⟩ := cellOf_dataRegion hb hch
  rw [getLsbD_extract _ hb hch, gridCell_toggleCell g _ _ hr hc, getLsbD_flipAt _ _ hb, getLsbD_extract g hb hch]
  simp only [cellOf_eq_iff hb hch hj hi, hitAt]
  by_cases hhit : ch = i
  · by_cases hbit : b = j
    · simp [hhit, hbit]
    · simp [hhit, hbit, Ne.symm hbit]
  · simp [hhit]

/-- R146 on the cell of a codeword bit. -/
theorem exec_tog_cellOf (s : State) :
    exec (.tog (BitVec.ofNat 5 (cellOf j i).1) (BitVec.ofNat 5 (cellOf j i).2)) s = .next { s with
      grid := toggleBit s.grid i j, responses := ⟨.ok, 1⟩ :: s.responses } := by
  obtain ⟨hr, hr', hc, hc'⟩ := cellOf_dataRegion hj hi
  have hrow : (BitVec.ofNat 5 (cellOf j i).1).toNat = (cellOf j i).1 := Nat.mod_eq_of_lt (by omega)
  have hcol : (BitVec.ofNat 5 (cellOf j i).2).toNat = (cellOf j i).2 := Nat.mod_eq_of_lt (by omega)
  rw [exec_tog_of_data s (by omega) (by omega) (by omega) (by omega), hrow, hcol, toggleBit]

end

end Sys2Proof.Machine
end

section
/-!
The codec end to end (spec/46_pipelines.md R151, R157 to R159, spec/70_reset_and_hazards.md R195): encoding and decoding again,
with cells toggled in between, and with different draws.
-/

namespace Sys2Proof.Machine

set_option Elab.async false

/-! ### `ENCODE` as three commands -/

/-- Settles O53: each of the four commands is written out, and no stage reads the responses. -/
theorem encodeIsBuildHencaPlace : Obligations.EncodeIsBuildHencaPlace := by
  unfold Obligations.EncodeIsBuildHencaPlace
  intro s hshort
  obtain ⟨m, hm, -⟩ := buildMessage_eq_some s.pay s.draw hshort
  exact ⟨_, _, _, _, exec_build_of_some hm, exec_henca _, exec_place _, exec_encode_of_some hm, rfl⟩

/-! ### The reset state as an encoding -/

theorem tabulate_zero_eq_codewordsOf : tabulate 16 (fun _ => 0) = codewordsOf 0 :=
  readAt_ext fun ch hch => by
    have hchunk : chunkOf 0 ch = 0 := BitVec.eq_of_getLsbD_eq fun j _ => by simp
    rw [readAt_tabulate _ hch, readAt_codewordsOf 0 hch, hchunk, henc_zero]

/-- The message of the empty payload and a zero draw is all zeros. -/
theorem buildMessage_empty_zero (payload : Payload) : buildMessage payload 0 0 = some 0 := by
  obtain ⟨m, hm, hbits⟩ := buildMessage_eq_some payload 0 (Nat.zero_le 21)
  have hzero : m = 0 := BitVec.eq_of_getLsbD_eq fun k hk => by
    rw [hbits k hk]
    simp
  rw [hm, hzero]

/-- R143: the fresh grid holds the zero message. -/
theorem freshGrid_eq_messageGrid : freshGrid = messageGrid 0 := by
  have hplace : placeCells (codewordsOf 0) (gridOf fun _ _ => false) = gridOf fun _ _ => false :=
    grid_ext fun r hr c hc => by
      rw [gridCell_placeCells _ _ hr hc, ← tabulate_zero_eq_codewordsOf, gridCell_gridOf _ hr hc]
      split
      case isTrue => rfl
      case isFalse hdata =>
        obtain ⟨hr4, hc4⟩ := inFinder_eq_false_iff.mp (Bool.not_eq_true _ ▸ hdata)
        rw [readAt_tabulate _ (bitOf_lt hr4 (by omega) hc4 (by omega)).2]
        simp
  rw [messageGrid, overlay_placeCells_eq _ _ (gridOf fun _ _ => false), hplace, freshGrid]

/-- Settles O13: the reset registers are those of the zero message, which is what `ENCODE` builds there. -/
theorem resetMeetsInvariants : Obligations.ResetMeetsInvariants := by
  unfold Obligations.ResetMeetsInvariants
  refine ⟨finderIntact_freshGrid, Nat.zero_le 16, fun i hi j hj => ?_, _,
    exec_encode_eq_messageGrid (buildMessage_empty_zero _), rfl, rfl, rfl, tabulate_zero_eq_codewordsOf.symm,
    freshGrid_eq_messageGrid.symm, rfl⟩
  rw [State.reset_cw, State.reset_msg, readAt_tabulate _ hi]
  simp

/-! ### The payload after decoding -/

section
variable {s t : State} {m : Message} {hit : Nat → Option Nat} (hn : s.plen.toNat ≤ 21)
  (hm : buildMessage s.pay s.plen.toNat s.draw = some m)
include hn hm

/-- R157, R158: `DECODE` of a grid that holds the message of `s`, with at most one bit flipped in each chunk. -/
theorem exec_decode_payload (hpay : ∀ k, k < s.plen.toNat → readAt s.pay k ≠ 0)
    (h : Received (extract t.grid) m hit 16) : ∃ u, exec .decode t = .next u ∧ u.plen = s.plen
      ∧ (∀ k, k < s.plen.toNat → readAt u.pay k = readAt s.pay k) ∧ u.stat.corr = BitVec.ofNat 5 (hitCount hit)
      ∧ u.responses = ⟨.ok, BitVec.ofNat 20 (s.plen.toNat + 32 * hitCount hit)⟩ :: t.responses := by
  obtain ⟨u, hu, hplen, hbytes, hcorr, hresponses⟩ := exec_decode_of_received h
  rw [termScan_messageBytes_of_nonzero hn hm hpay] at hplen hresponses
  refine ⟨u, hu, BitVec.eq_of_toNat_eq hplen, fun k hk => ?_, hcorr, hresponses⟩
  rw [hbytes k (by omega), getD_messageBytes_payload hn hm 0 hk]

end

theorem hitCount_none : hitCount (fun _ => none) = 0 := by decide

theorem received_messageGrid (m : Message) : Received (extract (messageGrid m)) m (fun _ => none) 16 :=
  extract_messageGrid m ▸ received_codewordsOf m

/-- The grid after `ENCODE` holds the message of the payload, and the payload stays. -/
theorem exec_encode_grid {s : State} {m : Message} (hm : buildMessage s.pay s.plen.toNat s.draw = some m) :
    ∃ t, exec .encode s = .next t ∧ t.grid = messageGrid m ∧ t.pay = s.pay ∧ t.plen = s.plen :=
  ⟨_, exec_encode_eq_messageGrid hm, rfl, rfl, rfl⟩

/-- Settles O56: the grid holds the codewords of the message, whose bytes up to the first zero are the payload. -/
theorem roundTrip : Obligations.RoundTrip := by
  unfold Obligations.RoundTrip
  refine ⟨fun payload n rnd hn hpay => ?_, fun s hn hpay => ?_⟩
  · obtain ⟨m, hm, -⟩ := buildMessage_eq_some payload rnd hn
    refine ⟨_, _, encodeBytes_eq_messageGrid hm, ?_, fun k hk => getD_messageBytes_payload hn hm 0 hk⟩
    rw [decodeGrid_of_received (received_messageGrid m), termScan_messageBytes_of_nonzero hn hm hpay, hitCount_none]
  · obtain ⟨m, hm, -⟩ := buildMessage_eq_some s.pay s.draw hn
    obtain ⟨t, ht, hgrid, -⟩ := exec_encode_grid hm
    obtain ⟨u, hu, hdecoded⟩ := exec_decode_payload hn hm hpay (hgrid ▸ received_messageGrid m)
    rw [hitCount_none] at hdecoded
    exact ⟨t, u, ht, hu, hdecoded⟩

/-! ### One flipped bit in a chunk -/

/-- A toggle of one data cell of the grid of a message flips one bit of one codeword. -/
theorem received_toggleBit (m : Message) {i j : Nat} (hi : i < 16) (hj : j < 16) :
    Received (extract (toggleBit (messageGrid m) i j)) m (hitAt i j) 16 :=
  fun ch hch => by
    refine ⟨fun b hb => ?_, ?_⟩
    · obtain ⟨-, rfl⟩ : ch = i ∧ j = b := by simpa [hitAt] using hb
      exact hj
    · rw [readAt_extract_toggleBit hi hj _ hch, extract_messageGrid, readAt_codewordsOf m hch]

/-- Settles O57: every chunk is decoded to its data, hit or not, and each hit counts one. -/
theorem singleBitResilience : Obligations.SingleBitResilience := by
  unfold Obligations.SingleBitResilience
  refine ⟨fun s i j hi hj hn hpay => ?_, fun payload n rnd g h hit hn hpay hg hhit => ?_⟩
  · obtain ⟨m, hm, -⟩ := buildMessage_eq_some s.pay s.draw hn
    obtain ⟨t, ht, hgrid, -⟩ := exec_encode_grid hm
    have hreceived := received_toggleBit m hi hj
    rw [← hgrid] at hreceived
    obtain ⟨v, hv, hdecoded⟩ := exec_decode_payload (t := { t with
      grid := toggleBit t.grid i j, responses := ⟨.ok, 1⟩ :: t.responses })
      hn hm hpay hreceived
    rw [hitCount_hitAt j hi] at hdecoded
    exact ⟨t, _, v, ht, exec_tog_cellOf hi hj t, hv, hdecoded⟩
  · obtain ⟨m, hm, -⟩ := buildMessage_eq_some payload rnd hn
    obtain rfl : g = messageGrid m := Option.some.inj (hg.symm.trans (encodeBytes_eq_messageGrid hm))
    have hreceived : Received (extract h) m hit 16 :=
      received_of_hitOncePerChunk (Nat.le_refl 16) fun ch hch _ => hhit ch hch trivial
    refine ⟨messageBytes m, ?_, ?_⟩
    · rw [decodeGrid_of_received (received_messageGrid m), termScan_messageBytes_of_nonzero hn hm hpay, hitCount_none]
    · rw [decodeGrid_of_received hreceived, termScan_messageBytes_of_nonzero hn hm hpay, hitCount]

/-! ### Two flipped bits in a chunk -/

/-- R116, R121: the first chunk with two flipped bits is the first double error. -/
theorem firstDoubleError_of_received {cws : Codewords} {m : Message} {hit : Nat → Option Nat} {i j k : Nat} (hi : i < 16)
    (hj : j < 16) (hk : k < 16) (hne : j ≠ k) (hbefore : Received cws m hit i)
    (hword : readAt cws i = flipBit (flipBit (henc (chunkOf m i)) j) k) : FirstDoubleError cws i := by
  obtain ⟨-, -, hdouble, -⟩ := doubleErrorsAreDetected (chunkOf m i) j k hj hk hne
  exact ⟨hi, hword ▸ hdouble, fun ch hch => (hdec_of_received hbefore hch).2.1⟩

theorem readAt_extract_of_hitTwice {m : Message} {h : Grid} {i j k : Nat} (hi : i < 16) (hne : j ≠ k)
    (hhit : HitTwice (messageGrid m) h i j k) : readAt (extract h) i = flipBit (flipBit (henc (chunkOf m i)) j) k := by
  refine BitVec.eq_of_getLsbD_eq fun b hb => ?_
  rw [getLsbD_extract h hb hi, hhit b hb, ← getLsbD_extract _ hb hi, extract_messageGrid, readAt_codewordsOf m hi,
    getLsbD_flipBit _ hb, getLsbD_flipBit _ hb]
  by_cases hbj : b = j
  · simp [hbj, hne]
  · simp [hbj]

/-- Two toggles in chunk `i` of the grid of a message make it the first double error. -/
theorem firstDoubleError_toggleBit_toggleBit (m : Message) {i j k : Nat} (hi : i < 16) (hj : j < 16) (hk : k < 16)
    (hne : j ≠ k) : FirstDoubleError (extract (toggleBit (toggleBit (messageGrid m) i j) i k)) i := by
  have hword : ∀ ch, ch < 16 → readAt (extract (toggleBit (toggleBit (messageGrid m) i j) i k)) ch
      = flipAt (flipAt (henc (chunkOf m ch)) (hitAt i j ch)) (hitAt i k ch) := fun ch hch => by
    rw [readAt_extract_toggleBit hi hk _ hch, (received_toggleBit m hi hj ch hch).2]
  have hbefore : Received (extract (toggleBit (toggleBit (messageGrid m) i j) i k)) m (fun _ => none) i := fun ch hch => by
    refine ⟨fun _ hb => (nomatch hb), ?_⟩
    rw [hword ch (hch.trans hi), hitAt, hitAt, if_neg (Nat.ne_of_lt hch), if_neg (Nat.ne_of_lt hch)]
    rfl
  refine firstDoubleError_of_received hi hj hk hne hbefore ?_
  rw [hword i hi, hitAt, hitAt, if_pos rfl, if_pos rfl]
  rfl

/-- Settles O58: the chunk with two flipped bits is the first double error, where `DECODE` stops. -/
theorem doubleBitDetection : Obligations.DoubleBitDetection := by
  unfold Obligations.DoubleBitDetection
  refine ⟨fun s i j k hi hj hk hne hn => ?_, fun payload n rnd g h hit i j k hn hg hi hj hk hne hbefore htwice => ?_⟩
  · obtain ⟨m, hm, -⟩ := buildMessage_eq_some s.pay s.draw hn
    obtain ⟨t, ht, hgrid, hpay, hplen⟩ := exec_encode_grid hm
    have hfirst := firstDoubleError_toggleBit_toggleBit m hi hj hk hne
    rw [← hgrid] at hfirst
    exact ⟨t, _, _, _, ht, exec_tog_cellOf hi hj t, exec_tog_cellOf hi hk _, exec_decode_of_firstDoubleError rfl hfirst, rfl,
      hpay, hplen, rfl⟩
  · obtain ⟨m, hm, -⟩ := buildMessage_eq_some payload rnd hn
    obtain rfl : g = messageGrid m := Option.some.inj (hg.symm.trans (encodeBytes_eq_messageGrid hm))
    have hfirst : FirstDoubleError (extract h) i := firstDoubleError_of_received hi hj hk hne
      (received_of_hitOncePerChunk (Nat.le_of_lt hi) hbefore) (readAt_extract_of_hitTwice hi hne htwice)
    rw [decodeGrid, scanChunks_rejected hfirst]

/-! ### Two draws -/

section
variable {payload : Payload} {n : Nat} {rnd rnd' : Draw} {m m' : Message} (hn : n ≤ 21)
  (hm : buildMessage payload n rnd = some m) (hm' : buildMessage payload n rnd' = some m')
include hn hm hm'

/-- R83: of the draw the message holds the first `168 - 8n` bits. -/
theorem buildMessage_eq_iff : m = m' ↔ ∀ j, j < 168 - 8 * n → rnd.getLsbD j = rnd'.getLsbD j := by
  constructor
  · rintro rfl j hj
    have hbit := getLsbD_buildMessage hn hm (k := 8 * n + 8 + j) (by omega)
    rw [getLsbD_buildMessage hn hm' (by omega)] at hbit
    simpa [show ¬8 * n + 8 + j < 8 * n by omega] using hbit.symm
  · intro h
    refine BitVec.eq_of_getLsbD_eq fun k hk => ?_
    rw [getLsbD_buildMessage hn hm hk, getLsbD_buildMessage hn hm' hk]
    split_ifs with hpay hterm
    · rfl
    · rfl
    · exact h _ (by omega)

/-- The bytes up to the terminator do not depend on the draw. -/
theorem getD_messageBytes_eq {k : Nat} (hk : k ≤ n) : (messageBytes m).getD k 0 = (messageBytes m').getD k 0 := by
  rcases Nat.lt_or_eq_of_le hk with hlt | rfl
  · rw [getD_messageBytes_payload hn hm 0 hlt, getD_messageBytes_payload hn hm' 0 hlt]
  · rw [getD_messageBytes_terminator hn hm, getD_messageBytes_terminator hn hm']

/-- Nor does the scan, which ends there at the latest. -/
theorem termScan_messageBytes_eq : termScan (messageBytes m) = termScan (messageBytes m') := by
  have hle := termScan_messageBytes_le_length hn hm'
  have hlen : ∀ x : Message, termScan (messageBytes m') < (messageBytes x).length := fun x => by
    rw [length_messageBytes]; omega
  refine termScan_eq (hlen m) ?_ fun k hk => ?_
  · rw [getD_messageBytes_eq hn hm hm' hle]
    exact termScan_at (hlen m')
  · rw [getD_messageBytes_eq hn hm hm' (hk.le.trans hle)]
    exact termScan_before hk

end

/-- Settles O59: grid and message fix each other, and the message is the payload, the terminator and the draw; the scan of the
bytes stops before the draw. -/
theorem drawDecidesTheGrid : Obligations.DrawDecidesTheGrid := by
  unfold Obligations.DrawDecidesTheGrid
  intro s s' hpay hplen hn
  obtain ⟨m, hm, -⟩ := buildMessage_eq_some s.pay s.draw hn
  obtain ⟨m', hm', -⟩ := buildMessage_eq_some s.pay s'.draw hn
  obtain ⟨t, ht, hgrid, -⟩ := exec_encode_grid hm
  obtain ⟨t', ht', hgrid', -⟩ := exec_encode_grid (s := s') (m := m') (by rw [hpay, hplen]; exact hm')
  obtain ⟨u, hu, huplen, hubytes, -, huresp⟩ := exec_decode_of_received (hgrid ▸ received_messageGrid m)
  obtain ⟨u', hu', huplen', hubytes', -, huresp'⟩ := exec_decode_of_received (hgrid' ▸ received_messageGrid m')
  have hscan := termScan_messageBytes_eq hn hm hm'
  refine ⟨t, t', ht, ht', ?_, u, u', hu, hu', ?_, BitVec.eq_of_toNat_eq ?_, fun k hk => ?_⟩
  · rw [hgrid, hgrid', ← buildMessage_eq_iff hn hm hm']
    exact ⟨messageGrid_injective, congrArg messageGrid⟩
  · rw [huresp, huresp', hscan]
    rfl
  · rw [huplen, huplen', hscan]
  · have hle := termScan_messageBytes_le_length hn hm
    rw [hubytes k (by omega), hubytes' k (by omega), getD_messageBytes_eq hn hm hm' (by omega)]

end Sys2Proof.Machine
end
